-- ==== Sys2Proof/Word.lean ====
section
/-!
DEFINITION. The words of the block: wire bytes (00_scope.md R6: 8 bits), the 4-bit fields of the command word, and the
32-bit host registers (10_state.md R11).
-/
namespace Sys2Proof

/-- One byte on the wire or in PBUF (R6: byte width 8 bits). -/
abbrev Byte := BitVec 8

/-- A 4-bit field of the command word: OP or FMT (R70). -/
abbrev Nibble := BitVec 4

/-- A host register or a host bus word (R11: four 32-bit registers). -/
abbrev Word := BitVec 32

end Sys2Proof
end

