-- ==== Sys2Proof/Syntax.lean ====
section
/-!
DEFINITION. The block's syntax: the decode formats (00_scope.md R9), the instructions (one constructor per row of
spec/opcode_table.json) and the moves of the agents (10_state.md R10).
-/
namespace Sys2Proof

/-- The thirteen decode formats, by the names of R9 (codes: 30_encoding.md R73). -/
inductive Format where
  | f1 | f2 | f2b | f3 | f3b | f4 | f5 | f6 | f7 | f8 | shsel | shlbl | u8
  deriving DecidableEq, Repr

/-- One constructor per row of the opcode table.

Command rows (R70, R71) carry every field of the command word that the row does not fix, the ignored ones too: an ignored
field is stored in CMD and read back as written.

Wire rows are frames that the engine moves one byte per atomic step (20_memory.md R50). A request frame is known to the
block whole (TXSEQ), so its constructor carries the frame's fields. A response frame has no selector and is known only as
its bytes arrive (30_encoding.md R79), so its constructor carries the byte that one engine step takes.
DESIGN CHOICE (safe): log 12. -/
inductive Instr where
  -- 40_frame_codec.md R112, R113
  | sread (fmt : Nibble) (addr len : Byte)
  | swrite (fmt : Nibble) (addr len : Byte)
  -- 41_value_decoder.md R160 with R144 to R156
  | decodeF1 (addr len : Byte)
  | decodeF2 (addr len : Byte)
  | decodeF3 (addr len : Byte)
  | decodeF4 (addr len : Byte)
  | decodeF5 (addr len : Byte)
  | decodeF6 (addr len : Byte)
  | decodeF7 (addr len : Byte)
  | decodeF8 (addr len : Byte)
  | decodeF2b (addr len : Byte)
  | decodeF3b (addr len : Byte)
  | decodeShsel (addr len : Byte)
  | decodeShlbl (addr len : Byte)
  | decodeU8 (addr len : Byte)
  -- 42_channel_read.md R180
  | rdchF1 (addr len : Byte)
  | rdchF2 (addr len : Byte)
  | rdchF3 (addr len : Byte)
  | rdchF4 (addr len : Byte)
  | rdchF5 (addr len : Byte)
  | rdchF6 (addr len : Byte)
  | rdchF7 (addr len : Byte)
  | rdchF8 (addr len : Byte)
  | rdchF2b (addr len : Byte)
  | rdchF3b (addr len : Byte)
  | rdchShsel (addr len : Byte)
  | rdchShlbl (addr len : Byte)
  | rdchU8 (addr len : Byte)
  -- the wire frames: 30_encoding.md R75 to R78
  | shortReadReq (a n : Byte)
  | shortWriteReq (a n : Byte) (p : List Byte)
  | shortReadResp (b : Byte)
  | shortWriteAck (k : Byte)
  deriving DecidableEq, Repr

/-- Where an instruction's bytes stand, which the command in progress fixes and no byte of the frame tells (R79): the host's
store to CMD, the request frame in TXSEQ, or the next byte of the response that the exchange expects. -/
inductive Port where
  | command | request | readResponse | writeAck
  deriving DecidableEq, Repr

/-- One atomic step of one agent (R10, 20_memory.md R50), or the external reset (70_reset_and_hazards.md R230).

A host access names its window offset, which is the host address less BASE (R40); `hostRead` and `hostWrite` carry the
offset and the access size in bytes. -/
inductive Move where
  | hostRead (off size : Nat)
  | hostWrite (off size : Nat) (v : Word)
  | engine
  | instrByte (b : Byte)
  | instrEnd
  | reset
  deriving DecidableEq, Repr, Inhabited

end Sys2Proof
end

