-- ==== Sys2Proof/WellFormed.lean ====
section
/-!
DEFINITION. Which instructions are well formed. The one relation between fields that the types do not hold is that a
short-write request carries as many payload bytes as its length byte says (30_encoding.md R77).
-/
namespace Sys2Proof

/-- Well-formedness of an instruction, as a check that runs. -/
def Instr.wf : Instr → Bool
  | .sread _ _ _ => true
  | .swrite _ _ _ => true
  | .decodeF1 _ _ => true
  | .decodeF2 _ _ => true
  | .decodeF3 _ _ => true
  | .decodeF4 _ _ => true
  | .decodeF5 _ _ => true
  | .decodeF6 _ _ => true
  | .decodeF7 _ _ => true
  | .decodeF8 _ _ => true
  | .decodeF2b _ _ => true
  | .decodeF3b _ _ => true
  | .decodeShsel _ _ => true
  | .decodeShlbl _ _ => true
  | .decodeU8 _ _ => true
  | .rdchF1 _ _ => true
  | .rdchF2 _ _ => true
  | .rdchF3 _ _ => true
  | .rdchF4 _ _ => true
  | .rdchF5 _ _ => true
  | .rdchF6 _ _ => true
  | .rdchF7 _ _ => true
  | .rdchF8 _ _ => true
  | .rdchF2b _ _ => true
  | .rdchF3b _ _ => true
  | .rdchShsel _ _ => true
  | .rdchShlbl _ _ => true
  | .rdchU8 _ _ => true
  | .shortReadReq _ _ => true
  | .shortWriteReq _ n p => p.length == n.toNat
  | .shortReadResp _ => true
  | .shortWriteAck _ => true

end Sys2Proof
end

