-- ==== Sys2Proof/Decode.lean ====
section
/-!
DEFINITION. The block's two encodings: the host command word (30_encoding.md R70 to R74) and the wire frames (R75 to R78),
each with its decoder, total on any bytes and rejecting by name, and one encoder written from the same tables.
-/
namespace Sys2Proof

/-! ## Bytes, words and checksums -/

/-- The unsigned little-endian value of a byte sequence, byte 0 least significant: le_n of 20_memory.md R48. -/
def leValue : List Byte → Nat
  | [] => 0
  | b :: bs => b.toNat + 256 * leValue bs

/-- Byte k of a word: bits 8k+7 down to 8k (R42). -/
def wordByte (w : Word) (k : Nat) : Byte := w.extractLsb' (8 * k) 8

/-- The four bytes of a word as the little-endian host window lays them out (R42). -/
def wordBytes (w : Word) : List Byte := [wordByte w 0, wordByte w 1, wordByte w 2, wordByte w 3]

/-- The word whose bytes, in little-endian order, are given (R42). -/
def wordOfBytes (bs : List Byte) : Word := BitVec.ofNat 32 (leValue bs)

/-- The sum of a byte sequence, as an integer. -/
def byteSum : List Byte → Nat
  | [] => 0
  | b :: bs => b.toNat + byteSum bs

/-- The checksum-closing byte for a byte sum: 40_frame_codec.md R100. -/
def chk8 (s : Nat) : Byte := BitVec.ofNat 8 (0xFF - s % 256)

/-- A frame closed by its checksum byte (R101). -/
def closeFrame (bs : List Byte) : List Byte := bs ++ [chk8 (byteSum bs)]

/-- The source's verify property: the frame's bytes sum to 0xFF mod 256 (R118). -/
def frameSumOk (bs : List Byte) : Bool := byteSum bs % 256 == 0xFF

/-! ## Fields of the command word (R70, R71) -/

/-- OP = w[3:0]. -/
def opOf (w : Word) : Nibble := w.extractLsb' 0 4

/-- FMT = w[7:4]. -/
def fmtOf (w : Word) : Nibble := w.extractLsb' 4 4

/-- ADDR = w[15:8]. -/
def addrOf (w : Word) : Byte := w.extractLsb' 8 8

/-- LEN = w[23:16]. -/
def lenOf (w : Word) : Byte := w.extractLsb' 16 8

/-- The command word of four fields, with the reserved bits 31:24 zero (R70). -/
def commandWord (op fmt : Nibble) (addr len : Byte) : Word := 0#8 ++ len ++ addr ++ fmt ++ op

/-- OP values (R72). -/
def opSread : Nibble := 1
def opSwrite : Nibble := 2
def opDecode : Nibble := 3
def opRdch : Nibble := 4

/-- FMT values (R73). -/
def Format.code : Format → Nibble
  | .f1 => 1
  | .f2 => 2
  | .f3 => 3
  | .f4 => 4
  | .f5 => 5
  | .f6 => 6
  | .f7 => 7
  | .f8 => 8
  | .f2b => 9
  | .f3b => 10
  | .shsel => 11
  | .shlbl => 12
  | .u8 => 13

/-- The format that an FMT value names; none for the reserved values 0, 14 and 15 (R73, R74). -/
def Format.ofCode (c : Nibble) : Option Format :=
  match c.toNat with
  | 1 => some .f1
  | 2 => some .f2
  | 3 => some .f3
  | 4 => some .f4
  | 5 => some .f5
  | 6 => some .f6
  | 7 => some .f7
  | 8 => some .f8
  | 9 => some .f2b
  | 10 => some .f3b
  | 11 => some .shsel
  | 12 => some .shlbl
  | 13 => some .u8
  | _ => none

/-- The DECODE row of a format. -/
def Instr.decodeRow : Format → Byte → Byte → Instr
  | .f1 => .decodeF1
  | .f2 => .decodeF2
  | .f2b => .decodeF2b
  | .f3 => .decodeF3
  | .f3b => .decodeF3b
  | .f4 => .decodeF4
  | .f5 => .decodeF5
  | .f6 => .decodeF6
  | .f7 => .decodeF7
  | .f8 => .decodeF8
  | .shsel => .decodeShsel
  | .shlbl => .decodeShlbl
  | .u8 => .decodeU8

/-- The RDCH row of a format. -/
def Instr.rdchRow : Format → Byte → Byte → Instr
  | .f1 => .rdchF1
  | .f2 => .rdchF2
  | .f2b => .rdchF2b
  | .f3 => .rdchF3
  | .f3b => .rdchF3b
  | .f4 => .rdchF4
  | .f5 => .rdchF5
  | .f6 => .rdchF6
  | .f7 => .rdchF7
  | .f8 => .rdchF8
  | .shsel => .rdchShsel
  | .shlbl => .rdchShlbl
  | .u8 => .rdchU8

/-! ## Decoders -/

/-- Why bytes are no instruction. The first two are the two illegal command words of R74; the others name a wire frame that
breaks R75 to R78. -/
inductive Reject where
  | illegalOp | illegalFmt | badLength | badCommandCode | badChecksum
  deriving DecidableEq, Repr

/-- The command decoder: OP first, then FMT for DECODE and RDCH only (R74, 30_encoding.md section 5; the order of
60_exceptions.md R201). Bits 31:24 are ignored. -/
def decodeCommand (w : Word) : Except Reject Instr :=
  if opOf w = opSread then .ok (.sread (fmtOf w) (addrOf w) (lenOf w))
  else if opOf w = opSwrite then .ok (.swrite (fmtOf w) (addrOf w) (lenOf w))
  else if opOf w = opDecode then
    match Format.ofCode (fmtOf w) with
    | some f => .ok (Instr.decodeRow f (addrOf w) (lenOf w))
    | none => .error .illegalFmt
  else if opOf w = opRdch then
    match Format.ofCode (fmtOf w) with
    | some f => .ok (Instr.rdchRow f (addrOf w) (lenOf w))
    | none => .error .illegalFmt
  else .error .illegalOp

/-- The command code of a short-read request (R80). -/
def shortReadCode : Byte := 0x81

/-- The command code of a short-write request (R80). -/
def shortWriteCode : Byte := 0x01

/-- The short-read request frame of R75: four bytes. -/
def shortReadFrame (a n : Byte) : List Byte := closeFrame [shortReadCode, a, n]

/-- The short-write request frame of R77: n + 4 bytes. -/
def shortWriteFrame (a n : Byte) (p : List Byte) : List Byte := closeFrame (shortWriteCode :: a :: n :: p)

/-- Reads a whole request frame: its command code, then its length, then its checksum byte (R75, R77, R80). -/
def decodeRequest (bs : List Byte) : Except Reject Instr :=
  match bs with
  | c :: a :: n :: rest =>
    if c = shortReadCode then
      if rest.length = 1 then
        if bs = shortReadFrame a n then .ok (.shortReadReq a n) else .error .badChecksum
      else .error .badLength
    else if c = shortWriteCode then
      if rest.length = n.toNat + 1 then
        if bs = shortWriteFrame a n (rest.take n.toNat) then .ok (.shortWriteReq a n (rest.take n.toNat))
        else .error .badChecksum
      else .error .badLength
    else .error .badCommandCode
  | _ => .error .badLength

/-- The decoder: any bytes, at any place an instruction can stand. -/
def decode : Port → List Byte → Except Reject Instr
  | .command, bs => if bs.length = 4 then decodeCommand (wordOfBytes bs) else .error .badLength
  | .request, bs => decodeRequest bs
  | .readResponse, [b] => .ok (.shortReadResp b)
  | .readResponse, _ => .error .badLength
  | .writeAck, [k] => .ok (.shortWriteAck k)
  | .writeAck, _ => .error .badLength

/-! ## The encoder -/

/-- Where an instruction's bytes stand. -/
def Instr.port : Instr → Port
  | .shortReadReq _ _ => .request
  | .shortWriteReq _ _ _ => .request
  | .shortReadResp _ => .readResponse
  | .shortWriteAck _ => .writeAck
  | .sread _ _ _ => .command
  | .swrite _ _ _ => .command
  | .decodeF1 _ _ => .command
  | .decodeF2 _ _ => .command
  | .decodeF3 _ _ => .command
  | .decodeF4 _ _ => .command
  | .decodeF5 _ _ => .command
  | .decodeF6 _ _ => .command
  | .decodeF7 _ _ => .command
  | .decodeF8 _ _ => .command
  | .decodeF2b _ _ => .command
  | .decodeF3b _ _ => .command
  | .decodeShsel _ _ => .command
  | .decodeShlbl _ _ => .command
  | .decodeU8 _ _ => .command
  | .rdchF1 _ _ => .command
  | .rdchF2 _ _ => .command
  | .rdchF3 _ _ => .command
  | .rdchF4 _ _ => .command
  | .rdchF5 _ _ => .command
  | .rdchF6 _ _ => .command
  | .rdchF7 _ _ => .command
  | .rdchF8 _ _ => .command
  | .rdchF2b _ _ => .command
  | .rdchF3b _ _ => .command
  | .rdchShsel _ _ => .command
  | .rdchShlbl _ _ => .command
  | .rdchU8 _ _ => .command

/-- The bytes of an instruction: a command word as the little-endian host window lays it out (R42, R70 to R73), a request
frame as it travels (R49, R75, R77), or the one byte that an engine step takes of a response (R76, R78). -/
def encode : Instr → List Byte
  | .sread fmt addr len => wordBytes (commandWord opSread fmt addr len)
  | .swrite fmt addr len => wordBytes (commandWord opSwrite fmt addr len)
  | .decodeF1 addr len => wordBytes (commandWord opDecode Format.f1.code addr len)
  | .decodeF2 addr len => wordBytes (commandWord opDecode Format.f2.code addr len)
  | .decodeF3 addr len => wordBytes (commandWord opDecode Format.f3.code addr len)
  | .decodeF4 addr len => wordBytes (commandWord opDecode Format.f4.code addr len)
  | .decodeF5 addr len => wordBytes (commandWord opDecode Format.f5.code addr len)
  | .decodeF6 addr len => wordBytes (commandWord opDecode Format.f6.code addr len)
  | .decodeF7 addr len => wordBytes (commandWord opDecode Format.f7.code addr len)
  | .decodeF8 addr len => wordBytes (commandWord opDecode Format.f8.code addr len)
  | .decodeF2b addr len => wordBytes (commandWord opDecode Format.f2b.code addr len)
  | .decodeF3b addr len => wordBytes (commandWord opDecode Format.f3b.code addr len)
  | .decodeShsel addr len => wordBytes (commandWord opDecode Format.shsel.code addr len)
  | .decodeShlbl addr len => wordBytes (commandWord opDecode Format.shlbl.code addr len)
  | .decodeU8 addr len => wordBytes (commandWord opDecode Format.u8.code addr len)
  | .rdchF1 addr len => wordBytes (commandWord opRdch Format.f1.code addr len)
  | .rdchF2 addr len => wordBytes (commandWord opRdch Format.f2.code addr len)
  | .rdchF3 addr len => wordBytes (commandWord opRdch Format.f3.code addr len)
  | .rdchF4 addr len => wordBytes (commandWord opRdch Format.f4.code addr len)
  | .rdchF5 addr len => wordBytes (commandWord opRdch Format.f5.code addr len)
  | .rdchF6 addr len => wordBytes (commandWord opRdch Format.f6.code addr len)
  | .rdchF7 addr len => wordBytes (commandWord opRdch Format.f7.code addr len)
  | .rdchF8 addr len => wordBytes (commandWord opRdch Format.f8.code addr len)
  | .rdchF2b addr len => wordBytes (commandWord opRdch Format.f2b.code addr len)
  | .rdchF3b addr len => wordBytes (commandWord opRdch Format.f3b.code addr len)
  | .rdchShsel addr len => wordBytes (commandWord opRdch Format.shsel.code addr len)
  | .rdchShlbl addr len => wordBytes (commandWord opRdch Format.shlbl.code addr len)
  | .rdchU8 addr len => wordBytes (commandWord opRdch Format.u8.code addr len)
  | .shortReadReq a n => shortReadFrame a n
  | .shortWriteReq a n p => shortWriteFrame a n p
  | .shortReadResp b => [b]
  | .shortWriteAck k => [k]

/-! ## The opcode table's numbering -/

/-- The instruction of an opcode-table word, bits numbered as the table numbers them: a command word, laid out as the host
window lays it out. The one word of at most one byte that is a command row's only by way of an operand bit and a wire row's
exactly is the code byte 0x81: it is read as a request frame whose address and length bytes are zero, closed by its checksum
byte (which is no operand). The code byte 0x01 is SREAD's word too, and is read as SREAD. DESIGN CHOICE (safe): log 18. -/
def decodeTableWord (nbits w : Nat) : Option Instr :=
  if nbits ≤ 8 ∧ w = shortReadCode.toNat then (decode .request (closeFrame [BitVec.ofNat 8 w, 0, 0])).toOption
  else (decode .command (wordBytes (BitVec.ofNat 32 w))).toOption

end Sys2Proof
end

