-- ==== Sys2Proof/Config.lean ====
section
/-!
DEFINITION. The parameters of the step relation (10_state.md R24, 00_scope.md R6) and the model's one free value. A
parameter marked OPEN in R6 has no body here: no proof can see a value of it.
-/
namespace Sys2Proof

/-- BASE, the host address of the window: OPEN (R6, 20_memory.md R40). DESIGN CHOICE (safe): log 9. -/
opaque Config.base : Nat

/-- LABEL_TEST, the bit test of format SHLBL: OPEN (R6, 41_value_decoder.md R155, D21). DESIGN CHOICE (safe): log 11. -/
opaque Config.labelTest : Byte → Bool

/-- The move made when the agenda names none: any move of any agent (R10, R247). A free value, applied to the number of
free moves made before it. DESIGN CHOICE (safe): log 2. -/
opaque Config.freeMove : Nat → Move

/-- PBUF_BYTES = 256 (R6, D11). -/
def Config.pbufBytes : Nat := 256

/-- SHLBL_LEN = 3 (R6, D21). -/
def Config.shlblLen : Nat := 3

end Sys2Proof
end

