-- ==== Sys2Proof/Machine/State.lean ====
section
/-!
DEFINITION. The machine's state as plain data: the host-visible registers (10_state.md R11 to R15), the payload buffer
(R16, R17), the engine (R18), the transport (R19), and the model's own fields for the agents outside the block. The state
after reset is R23's.
-/
namespace Sys2Proof.Machine

/-- PBUF: its written bytes as (index, byte) pairs, indices strictly rising. An index that is not listed has never been
written since reset: it has no value, and its written mark W is 0 (R16, R17). -/
abbrev Memory := List Host.Cell

/-- The engine's phase (R18). -/
inductive Phase where
  | idle | tx | rx
  deriving DecidableEq, Repr

/-- The operation of the exchange in progress (R18). -/
inductive ExchangeOp where
  | sread | swrite | rdch
  deriving DecidableEq, Repr

/-- The error conditions of STATUS.ERR (60_exceptions.md R200). Codes 5 to 15 are never produced, so they have no name. -/
inductive ErrCode where
  | none | chksum | eos | illegalOp | illegalFmt
  deriving DecidableEq, Repr

/-- Why a step stops. -/
inductive Fault where
  /-- `fault UnwrittenPayload` of R17 and 60_exceptions.md R208: raised by a host load of a never-written PBUF byte, and by
  SWRITE and DECODE when they consume one. Safe: it shuts out runs whose outcome the spec does not fix. -/
  | unwrittenPayload
  /-- Raised by the completion of an RDCH exchange whose XFMT names no format. R111 starts no such exchange, so no run from
  reset raises it. Safe (log 14). -/
  | illegalExchangeFormat
  deriving DecidableEq, Repr

/-- Why a step has no meaning. -/
inductive Refusal where
  /-- Raised by an arm of `exec` whose instruction has no meaning yet: none is left. Safe. -/
  | notModelled (mnemonic : String)
  /-- Raised by a host access in the window whose width or alignment 20_memory.md R41 does not support (R208). Safe. -/
  | unsupportedAccess (off size : Nat)
  deriving DecidableEq, Repr

/-- The state of the block, of its transport, and of the agents outside it. -/
structure State where
  /-- CMD, the last accepted command word (R11, R12). -/
  cmd : Word
  /-- STATUS.BUSY, bit 0 (R13). -/
  busy : Bool
  /-- STATUS.DONE, bit 1 (R13). -/
  done : Bool
  /-- STATUS.OK, bit 2 (R13). -/
  ok : Bool
  /-- STATUS.ERR, bits 7:4 (R13, R200). -/
  err : ErrCode
  /-- STATUS.EOSF, bit 8, sticky (R13). -/
  eosf : Bool
  /-- STATUS.OVR, bit 9 (R13). -/
  ovr : Bool
  /-- RESULT, two's complement (R14). -/
  result : Word
  /-- CHKINFO.TXCHK, bits 7:0 (R15). -/
  txchk : Byte
  /-- CHKINFO.RXCHK, bits 15:8 (R15). -/
  rxchk : Byte
  /-- CHKINFO.RXSUM, bits 23:16 (R15). -/
  rxsum : Byte
  /-- PBUF and its written marks W (R16, R17). -/
  pbuf : Memory
  /-- PHASE (R18). -/
  phase : Phase
  /-- XOP (R18). -/
  xop : ExchangeOp
  /-- XFMT (R18). -/
  xfmt : Nibble
  /-- XLEN (R18). -/
  xlen : Byte
  /-- TXSEQ, the request frame to send (R18). -/
  txseq : List Byte
  /-- TXIDX, the request bytes already sent (R18). -/
  txidx : Nat
  /-- RXIDX, the response payload bytes already taken (R18). -/
  rxidx : Nat
  /-- ACC, the running sum mod 256 of the payload bytes taken (R18). -/
  acc : Byte
  /-- TXS, every byte the engine has put, in order (R19). -/
  txs : List Byte
  /-- RXQ, the bytes sent by the instrument and not yet taken (R19). -/
  rxq : List Byte
  /-- RXEND, 1 once the instrument has ended the stream (R19). -/
  rxend : Bool
  /-- The model's own: the moves still to be made, the next one first (R10, R51). DESIGN CHOICE (safe): log 1. -/
  agenda : List Move
  /-- The model's own: how many free moves have been made. DESIGN CHOICE (safe): log 2. -/
  tick : Nat
  /-- The model's own: the values that the host's loads have returned, in order. DESIGN CHOICE (safe): log 8. -/
  hostIn : List Word
  deriving DecidableEq, Repr

/-- The machine after reset (R23, 70_reset_and_hazards.md R230). XOP, XFMT, XLEN and TXSEQ are unspecified there and never
read while IDLE: log 5 names the values. Reset does not change the transport: log 6 names its contents before any step. -/
def State.reset : State where
  cmd := 0
  busy := false
  done := false
  ok := false
  err := .none
  eosf := false
  ovr := false
  result := 0
  txchk := 0
  rxchk := 0
  rxsum := 0
  pbuf := []
  phase := .idle
  xop := .sread      -- DESIGN CHOICE (unsafe): log 5
  xfmt := 0          -- DESIGN CHOICE (unsafe): log 5
  xlen := 0          -- DESIGN CHOICE (unsafe): log 5
  txseq := []        -- DESIGN CHOICE (unsafe): log 5
  txidx := 0
  rxidx := 0
  acc := 0
  txs := []          -- DESIGN CHOICE (unsafe): log 6
  rxq := []          -- DESIGN CHOICE (unsafe): log 6
  rxend := false     -- DESIGN CHOICE (unsafe): log 6
  agenda := []       -- DESIGN CHOICE (safe): log 1
  tick := 0          -- DESIGN CHOICE (safe): log 2
  hostIn := []       -- DESIGN CHOICE (safe): log 8

end Sys2Proof.Machine
end

