-- ==== Sys2Proof/Machine/Flags.lean ====
section
/-!
DEFINITION. STATUS, CHKINFO and CMD as software sees them, and the rules that write the flags other than by a completion
(10_state.md R12, R13, R15, R22). Each flag has one home in State; the words are composed here.
-/
namespace Sys2Proof.Machine

/-- The ERR code of a condition (60_exceptions.md R200). -/
def errBits : ErrCode → Nibble
  | .none => 0
  | .chksum => 1
  | .eos => 2
  | .illegalOp => 3
  | .illegalFmt => 4

/-- One bit. -/
def bit (b : Bool) : BitVec 1 := BitVec.ofBool b

/-- STATUS as it is read: bits 31:10 and 3 are 0 (R13). DEDUCED (safe): log 15. -/
def statusWord (s : State) : Word :=
  0#22 ++ bit s.ovr ++ bit s.eosf ++ errBits s.err ++ 0#1 ++ bit s.ok ++ bit s.done ++ bit s.busy

/-- CHKINFO as it is read: bits 31:24 are 0 (R15). -/
def chkinfoWord (s : State) : Word := 0#8 ++ s.rxsum ++ s.rxchk ++ s.txchk

/-- What an accepted CMD write does before its checks: CMD takes w[23:0], DONE, OK, ERR and RESULT are cleared
(40_frame_codec.md R111). -/
def acceptCommand (w : Word) (s : State) : State :=
  { s with cmd := (w.extractLsb' 0 24).setWidth 32, done := false, ok := false, err := .none, result := 0 }

/-- A CMD or PBUF write while BUSY: ignored, and OVR is set (70_reset_and_hazards.md R240). -/
def overrun (s : State) : State := { s with ovr := true }

/-- A host store to STATUS: bit 9 clears OVR, and nothing else changes (20_memory.md R46). -/
def writeStatus (v : Word) (s : State) : State := if v.getLsbD 9 then { s with ovr := false } else s

end Sys2Proof.Machine
end

