-- ==== Sys2Proof/Machine/Ops.lean ====
section
/-!
DEFINITION. The named operations over the payload buffer, the transport and the engine, and the completion of an operation
(60_exceptions.md R203), which is the block's one analogue of taking an exception. The block has no return from one (R205):
the outcome stays in STATUS until the next accepted command.
-/
namespace Sys2Proof.Machine

/-- What a step answers. -/
abbrev Out := Host.Outcome State Fault Refusal

/-! ## The payload buffer (10_state.md R16, R17) -/

/-- PBUF[k], or none where W[k] = 0. -/
def Memory.read : Memory → Nat → Option Byte
  | [], _ => none
  | (j, b) :: m, k => if j = k then some b else Memory.read m k

/-- PBUF[k] <- b and W[k] <- 1, keeping the indices strictly rising. -/
def Memory.write : Memory → Nat → Byte → Memory
  | [], k, b => [(k, b)]
  | (j, c) :: m, k, b =>
    if k < j then (k, b) :: (j, c) :: m
    else if k = j then (k, b) :: m
    else (j, c) :: Memory.write m k b

/-- PBUF[k], PBUF[k+1], ... <- the given bytes. -/
def Memory.writeBytes : Memory → Nat → List Byte → Memory
  | m, _, [] => m
  | m, k, b :: bs => Memory.writeBytes (Memory.write m k b) (k + 1) bs

/-- PBUF[k .. k+n-1], or none where one of them was never written. -/
def Memory.readBytes (m : Memory) : Nat → Nat → Option (List Byte)
  | _, 0 => some []
  | k, n + 1 =>
    match Memory.read m k, Memory.readBytes m (k + 1) n with
    | some b, some bs => some (b :: bs)
    | _, _ => none

/-- Every index is at least lo and the indices strictly rise. -/
def Memory.risesFrom : Nat → Memory → Bool
  | _, [] => true
  | lo, (j, _) :: m => decide (lo ≤ j) && Memory.risesFrom (j + 1) m

/-- The canonical form: indices strictly rising, all below PBUF_BYTES. -/
def Memory.wf (m : Memory) : Bool := Memory.risesFrom 0 m && m.all (fun c => decide (c.1 < Config.pbufBytes))

/-! ## The transport (40_frame_codec.md R104, R105) -/

/-- put(b): it never fails (R105). TXS has no bound. DEDUCED (safe): log 19. -/
def put (b : Byte) (s : State) : State := { s with txs := s.txs ++ [b] }

/-- What get() answers (R104). -/
inductive Got where
  | byte (b : Byte) (rest : List Byte)
  | eof
  | hold
  deriving DecidableEq, Repr

/-- get(): the oldest queued byte, else EOF if the stream has ended, else no step is enabled (R104). -/
def get (s : State) : Got :=
  match s.rxq with
  | b :: rest => .byte b rest
  | [] => if s.rxend then .eof else .hold

/-! ## Completion (60_exceptions.md R203) -/

/-- Complete(err, v): the only way an operation ends. -/
def complete (e : ErrCode) (v : Int) (s : State) : State :=
  { s with
    phase := .idle, txidx := 0, rxidx := 0, acc := 0,
    busy := false, done := true, err := e, ok := decide (e = .none),
    eosf := s.eosf || decide (e = .eos),
    result := if e = .none then BitVec.ofInt 32 v else 0 }

/-! ## Starting an operation (40_frame_codec.md R111) -/

/-- A command meets the block: ignored while BUSY (70_reset_and_hazards.md R240), else accepted, and its body runs in the
same atomic step. -/
def onCommand (w : Word) (s : State) (body : State → Out) : Out :=
  if s.busy then .next (overrun s) else body (acceptCommand w s)

/-- The body of a transport operation: EOS at once after the end of the stream (60_exceptions.md R201 check 3). -/
def onOpenStream (s : State) (body : Out) : Out :=
  if s.eosf then .next (complete .eos 0 s) else body

/-- start(x, a, n, f) of R111, with TXSEQ given: TXCHK is TXSEQ's last byte. -/
def startExchange (x : ExchangeOp) (n : Byte) (f : Nibble) (frame : List Byte) (s : State) : State :=
  { s with
    xop := x, xlen := n, xfmt := f, txseq := frame,
    txchk := frame.getLastD 0, rxchk := 0, rxsum := 0,
    txidx := 0, rxidx := 0, acc := 0,
    phase := .tx, busy := true }

/-- A command word that names no operation completes at once (R201 checks 1 and 2, R74). The other rejections are of wire
frames, which no command word raises. -/
def rejectCommand (r : Reject) (w : Word) (s : State) : Out :=
  match r with
  | .illegalOp => onCommand w s fun t => .next (complete .illegalOp 0 t)
  | .illegalFmt => onCommand w s fun t => .next (complete .illegalFmt 0 t)
  | .badLength => .next s
  | .badCommandCode => .next s
  | .badChecksum => .next s

/-! ## Engine steps (40_frame_codec.md R106 to R110) -/

/-- The transmit step, R106: put TXSEQ[TXIDX], and turn round to RX after the last byte. Where TXSEQ has no byte left, which
R25 rules out while PHASE is TX, no step is enabled (log 14). -/
def transmit (s : State) : State :=
  match s.txseq[s.txidx]? with
  | none => s
  | some b =>
    let t := put b { s with txidx := s.txidx + 1 }
    if s.txidx + 1 = s.txseq.length then { t with phase := .rx, rxidx := 0, acc := 0 } else t

/-- The payload step, R108, on the byte that get() has returned. -/
def payloadStep (b : Byte) (s : State) : State :=
  { s with pbuf := Memory.write s.pbuf s.rxidx b, acc := s.acc + b, rxidx := s.rxidx + 1 }

/-- The ack step, R110, on the byte that get() has returned. -/
def ackStep (k : Byte) (s : State) : State :=
  let t := { s with rxchk := k, rxsum := 0 }
  if k = s.txchk then complete .none 0 t else complete .chksum 0 t

end Sys2Proof.Machine
end

