-- ==== Sys2Proof/Machine/Bus.lean ====
section
/-!
DEFINITION. The host register window (20_memory.md R40 to R47): which accesses reach the block, which are supported, what a
load returns, and what a store does at every offset but CMD's.
-/
namespace Sys2Proof.Machine

/-- The host address of a window offset (R40). BASE is OPEN. -/
def hostAddress (off : Nat) : Nat := Config.base + off

/-- The window offset of a host address; none below the window. DESIGN CHOICE (safe): log 9. -/
def windowOffset (addr : Nat) : Option Nat := if Config.base ≤ addr then some (addr - Config.base) else none

/-- Whether an access at this offset reaches the block: the window is 512 bytes (R40). -/
def inWindow (off : Nat) : Bool := decide (off < 0x200)

/-- The supported accesses (R41): four bytes at a register, at a multiple of 4 in the reserved range, or at a multiple of 4 in
PBUF; one byte anywhere in PBUF. -/
def supported (off size : Nat) : Bool :=
  decide (size = 4 ∧ off % 4 = 0 ∧ off < 0x10)
  || decide (size = 4 ∧ off % 4 = 0 ∧ 0x10 ≤ off ∧ off < 0x100)
  || decide (size = 1 ∧ 0x100 ≤ off ∧ off < 0x200)
  || decide (size = 4 ∧ off % 4 = 0 ∧ 0x100 ≤ off ∧ off < 0x200)

/-- A load below 0x100: the four registers, and 0 in the reserved range (R44, R45). -/
def registerRead (off : Nat) (s : State) : Word :=
  if off = 0x000 then s.cmd
  else if off = 0x004 then statusWord s
  else if off = 0x008 then s.result
  else if off = 0x00C then chkinfoWord s
  else 0

/-- What a supported load returns, or none where it meets a never-written PBUF byte (R42 to R45). A one-byte load is
zero-extended. DESIGN CHOICE (safe): log 17. -/
def loadValue (off size : Nat) (s : State) : Option Word :=
  if off < 0x100 then some (registerRead off s)
  else (Memory.readBytes s.pbuf (off - 0x100) size).map wordOfBytes

/-- A host load (R40, R41, R44): it changes no state of the block, and the host receives the value (log 8). Outside the window it
does not reach the block. DEDUCED (safe): log 10. -/
def hostLoad (off size : Nat) (s : State) : Out :=
  if inWindow off then
    if supported off size then
      match loadValue off size s with
      | some v => .next { s with hostIn := s.hostIn ++ [v] }
      | none => .fault .unwrittenPayload
    else .refused (.unsupportedAccess off size)
  else .next s

/-- A supported store at any offset but CMD's (R43, R45 to R47, 70_reset_and_hazards.md R240): STATUS, then RESULT, CHKINFO and
the reserved range, which ignore it, then PBUF, which ignores it while BUSY and sets OVR. -/
def storeValue (off size : Nat) (v : Word) (s : State) : State :=
  if off = 0x004 then writeStatus v s
  else if off < 0x100 then s
  else if s.busy then overrun s
  else { s with pbuf := Memory.writeBytes s.pbuf (off - 0x100) ((wordBytes v).take size) }

end Sys2Proof.Machine
end

