-- ==== Sys2Proof/Machine/Operands.lean ====
section
/-!
DEFINITION. The value decoder: payload lengths, raw values, sign by inversion, and the thirteen pure decodes
(41_value_decoder.md R140 to R157), with the operand reads of SWRITE, DECODE and RDCH.
-/
namespace Sys2Proof.Machine

/-- fmtlen(f) (R140). -/
def fmtlen : Format → Nat
  | .f1 => 2
  | .f2 => 3
  | .f2b => 3
  | .f3 => 3
  | .f3b => 3
  | .f4 => 4
  | .f5 => 4
  | .f6 => 1
  | .f7 => 2
  | .f8 => 1
  | .shsel => 3
  | .shlbl => Config.shlblLen
  | .u8 => 1

/-- The quotient rounded toward zero (R141, D17). -/
def truncDiv (a : Int) (b : Nat) : Int := a.sign * ((a.natAbs / b : Nat) : Int)

/-- The raw value of the first n payload bytes: raw8, raw16, raw24, raw32 (R142, R48). -/
def rawValue (n : Nat) (p : List Byte) : Nat := leValue (p.take n)

/-- Sign by inversion, SI(raw, W, S): magnitude stored inverted and value positive where bit W-1 is set, stored plainly and
value negative where it is clear (R143; 90_conflicts.md C1). -/
def signByInversion (raw W S : Nat) : Int :=
  let mask := 2 ^ (W - 1) - 1
  if raw.testBit (W - 1) then ((((2 ^ W - 1 - raw) &&& mask) >>> S : Nat) : Int)
  else -(((raw &&& mask) >>> S : Nat) : Int)

/-- F1 (R144). -/
def decF1 (p : List Byte) : Int := (((rawValue 2 p) &&& 0x7FF) * 5 : Nat)

/-- F3 (R147). -/
def decF3 (p : List Byte) : Int := signByInversion (rawValue 3 p) 24 0

/-- F2 (R145). -/
def decF2 (p : List Byte) : Int := truncDiv (decF3 p) 10 * 10

/-- F2b (R146). -/
def decF2b (p : List Byte) : Int := decF2 p * 100

/-- F3b (R148). -/
def decF3b (p : List Byte) : Int := decF3 p * 100

/-- F4 (R149). -/
def decF4 (p : List Byte) : Int := signByInversion (rawValue 4 p) 32 7

/-- F5 (R150). -/
def decF5 (p : List Byte) : Int := signByInversion (rawValue 4 p) 32 0

/-- F6 (R151). -/
def decF6 (p : List Byte) : Int := (rawValue 1 p * 100 : Nat)

/-- F7 (R152). -/
def decF7 (p : List Byte) : Int := (BitVec.ofNat 16 (rawValue 2 p)).toInt

/-- F8 (R153). -/
def decF8 (p : List Byte) : Int := (BitVec.ofNat 8 (rawValue 1 p)).toInt * 10

/-- Three bits packed with bit i from byte i: the sum of R154 and R155. -/
def packThree (test : Byte → Bool) (p : List Byte) : Int :=
  ((test (p.getD 0 0)).toNat + (test (p.getD 1 0)).toNat * 2 + (test (p.getD 2 0)).toNat * 4 : Nat)

/-- SHSEL (R154, D20): bit 4 of each byte. -/
def decShsel (p : List Byte) : Int := packThree (fun b => b.getLsbD 4) p

/-- SHLBL (R155, D21): the OPEN test of each byte. -/
def decShlbl (p : List Byte) : Int := packThree Config.labelTest p

/-- U8 (R156). -/
def decU8 (p : List Byte) : Int := (rawValue 1 p : Nat)

/-- dec_f: a total function of the payload bytes alone (R157). -/
def decodeValue : Format → List Byte → Int
  | .f1 => decF1
  | .f2 => decF2
  | .f2b => decF2b
  | .f3 => decF3
  | .f3b => decF3b
  | .f4 => decF4
  | .f5 => decF5
  | .f6 => decF6
  | .f7 => decF7
  | .f8 => decF8
  | .shsel => decShsel
  | .shlbl => decShlbl
  | .u8 => decU8

/-- An operation that consumes PBUF[0..n-1]: fault UnwrittenPayload where one of them was never written (R17, R201
check 4). -/
def withPayload (n : Nat) (s : State) (body : List Byte → Out) : Out :=
  match Memory.readBytes s.pbuf 0 n with
  | some p => body p
  | none => .fault .unwrittenPayload

/-- DECODE's body: the value of PBUF[0..n-1], in the accept step (R160). -/
def decodeInPlace (n : Nat) (dec : List Byte → Int) (s : State) : Out :=
  withPayload n s fun p => .next (complete .none (dec p) s)

/-- A short read of n bytes from address a, started (R102, R111). -/
def startShortRead (x : ExchangeOp) (a n : Byte) (f : Nibble) (s : State) : State :=
  startExchange x n f (shortReadFrame a n) s

/-- RDCH's body: a short read of fmtlen(f) bytes, after the stream check (42_channel_read.md R180, R111). -/
def startChannelRead (f : Format) (a : Byte) (s : State) : Out :=
  onOpenStream s (.next (startShortRead .rdch a (BitVec.ofNat 8 (fmtlen f)) f.code s))

/-- RDCH's completion after a good response sum: Complete(NONE, dec_f(PBUF[0..n-1])) (R109, R180). An XFMT that names no
format is ruled out by R111 (log 14). -/
def completeChannelRead (s : State) : Out :=
  match Format.ofCode s.xfmt with
  | some f => decodeInPlace (fmtlen f) (decodeValue f) s
  | none => .fault .illegalExchangeFormat

/-- The trailing-byte step, R109, on the byte that get() has returned. -/
def trailingStep (t : Byte) (s : State) : Out :=
  let sum := s.acc + t
  let u := { s with rxchk := t, rxsum := sum }
  if sum ≠ 0xFF then .next (complete .chksum 0 u)
  else if u.xop = .sread then .next (complete .none 0 u)
  else completeChannelRead u

end Sys2Proof.Machine
end

