-- ==== Sys2Proof/Machine/ChannelReads.lean ====
section
/-!
DEFINITION. RDCH, one meaning per format (42_channel_read.md R180): the accept step, which starts a short read of fmtlen(f)
bytes. LEN is ignored but stored in CMD. The exchange's byte steps and its decode on completion are in WireFrames.lean.
-/
namespace Sys2Proof.Machine

/-- RDCH.F1: R180 with R144. -/
def execRdchF1 (addr len : Byte) (s : State) : Out :=
  onCommand (commandWord opRdch Format.f1.code addr len) s (startChannelRead .f1 addr)

/-- RDCH.F2: R180 with R145. -/
def execRdchF2 (addr len : Byte) (s : State) : Out :=
  onCommand (commandWord opRdch Format.f2.code addr len) s (startChannelRead .f2 addr)

/-- RDCH.F3: R180 with R147. -/
def execRdchF3 (addr len : Byte) (s : State) : Out :=
  onCommand (commandWord opRdch Format.f3.code addr len) s (startChannelRead .f3 addr)

/-- RDCH.F4: R180 with R149. -/
def execRdchF4 (addr len : Byte) (s : State) : Out :=
  onCommand (commandWord opRdch Format.f4.code addr len) s (startChannelRead .f4 addr)

/-- RDCH.F5: R180 with R150. -/
def execRdchF5 (addr len : Byte) (s : State) : Out :=
  onCommand (commandWord opRdch Format.f5.code addr len) s (startChannelRead .f5 addr)

/-- RDCH.F6: R180 with R151. -/
def execRdchF6 (addr len : Byte) (s : State) : Out :=
  onCommand (commandWord opRdch Format.f6.code addr len) s (startChannelRead .f6 addr)

/-- RDCH.F7: R180 with R152. -/
def execRdchF7 (addr len : Byte) (s : State) : Out :=
  onCommand (commandWord opRdch Format.f7.code addr len) s (startChannelRead .f7 addr)

/-- RDCH.F8: R180 with R153. -/
def execRdchF8 (addr len : Byte) (s : State) : Out :=
  onCommand (commandWord opRdch Format.f8.code addr len) s (startChannelRead .f8 addr)

/-- RDCH.F2b: R180 with R146. -/
def execRdchF2b (addr len : Byte) (s : State) : Out :=
  onCommand (commandWord opRdch Format.f2b.code addr len) s (startChannelRead .f2b addr)

/-- RDCH.F3b: R180 with R148. -/
def execRdchF3b (addr len : Byte) (s : State) : Out :=
  onCommand (commandWord opRdch Format.f3b.code addr len) s (startChannelRead .f3b addr)

/-- RDCH.SHSEL: R180 with R154. -/
def execRdchShsel (addr len : Byte) (s : State) : Out :=
  onCommand (commandWord opRdch Format.shsel.code addr len) s (startChannelRead .shsel addr)

/-- RDCH.SHLBL: R180 with R155. -/
def execRdchShlbl (addr len : Byte) (s : State) : Out :=
  onCommand (commandWord opRdch Format.shlbl.code addr len) s (startChannelRead .shlbl addr)

/-- RDCH.U8: R180 with R156. -/
def execRdchU8 (addr len : Byte) (s : State) : Out :=
  onCommand (commandWord opRdch Format.u8.code addr len) s (startChannelRead .u8 addr)

end Sys2Proof.Machine
end

