-- ==== Sys2Proof/Machine/DecodeCommands.lean ====
section
/-!
DEFINITION. DECODE, one meaning per format (41_value_decoder.md R160). ADDR and LEN are ignored but stored in CMD
(30_encoding.md R71); the transport is not used, so EOSF does not stop it.
-/
namespace Sys2Proof.Machine

/-- DECODE.F1: R160 with R144. -/
def execDecodeF1 (addr len : Byte) (s : State) : Out :=
  onCommand (commandWord opDecode Format.f1.code addr len) s (decodeInPlace (fmtlen .f1) decF1)

/-- DECODE.F2: R160 with R145. -/
def execDecodeF2 (addr len : Byte) (s : State) : Out :=
  onCommand (commandWord opDecode Format.f2.code addr len) s (decodeInPlace (fmtlen .f2) decF2)

/-- DECODE.F3: R160 with R147. -/
def execDecodeF3 (addr len : Byte) (s : State) : Out :=
  onCommand (commandWord opDecode Format.f3.code addr len) s (decodeInPlace (fmtlen .f3) decF3)

/-- DECODE.F4: R160 with R149. -/
def execDecodeF4 (addr len : Byte) (s : State) : Out :=
  onCommand (commandWord opDecode Format.f4.code addr len) s (decodeInPlace (fmtlen .f4) decF4)

/-- DECODE.F5: R160 with R150. -/
def execDecodeF5 (addr len : Byte) (s : State) : Out :=
  onCommand (commandWord opDecode Format.f5.code addr len) s (decodeInPlace (fmtlen .f5) decF5)

/-- DECODE.F6: R160 with R151. -/
def execDecodeF6 (addr len : Byte) (s : State) : Out :=
  onCommand (commandWord opDecode Format.f6.code addr len) s (decodeInPlace (fmtlen .f6) decF6)

/-- DECODE.F7: R160 with R152. -/
def execDecodeF7 (addr len : Byte) (s : State) : Out :=
  onCommand (commandWord opDecode Format.f7.code addr len) s (decodeInPlace (fmtlen .f7) decF7)

/-- DECODE.F8: R160 with R153. -/
def execDecodeF8 (addr len : Byte) (s : State) : Out :=
  onCommand (commandWord opDecode Format.f8.code addr len) s (decodeInPlace (fmtlen .f8) decF8)

/-- DECODE.F2b: R160 with R146. -/
def execDecodeF2b (addr len : Byte) (s : State) : Out :=
  onCommand (commandWord opDecode Format.f2b.code addr len) s (decodeInPlace (fmtlen .f2b) decF2b)

/-- DECODE.F3b: R160 with R148. -/
def execDecodeF3b (addr len : Byte) (s : State) : Out :=
  onCommand (commandWord opDecode Format.f3b.code addr len) s (decodeInPlace (fmtlen .f3b) decF3b)

/-- DECODE.SHSEL: R160 with R154. -/
def execDecodeShsel (addr len : Byte) (s : State) : Out :=
  onCommand (commandWord opDecode Format.shsel.code addr len) s (decodeInPlace (fmtlen .shsel) decShsel)

/-- DECODE.SHLBL: R160 with R155. -/
def execDecodeShlbl (addr len : Byte) (s : State) : Out :=
  onCommand (commandWord opDecode Format.shlbl.code addr len) s (decodeInPlace (fmtlen .shlbl) decShlbl)

/-- DECODE.U8: R160 with R156. -/
def execDecodeU8 (addr len : Byte) (s : State) : Out :=
  onCommand (commandWord opDecode Format.u8.code addr len) s (decodeInPlace (fmtlen .u8) decU8)

end Sys2Proof.Machine
end

