-- ==== Sys2Proof/Machine/FrameCommands.lean ====
section
/-!
DEFINITION. The two frame commands: SREAD and SWRITE (40_frame_codec.md R111 to R113). The engine's byte steps of the exchange
that they start are in WireFrames.lean.
-/
namespace Sys2Proof.Machine

/-- SREAD: a short read of LEN bytes from ADDR (R112). FMT is not checked (30_encoding.md R74); XFMT keeps it (R111). -/
def execSread (fmt : Nibble) (addr len : Byte) (s : State) : Out :=
  onCommand (commandWord opSread fmt addr len) s fun t =>
    onOpenStream t (.next (startShortRead .sread addr len fmt t))

/-- SWRITE: a short write of PBUF[0..LEN-1] to ADDR (R113). The stream is checked before the payload (60_exceptions.md R201
checks 3 and 4), and TXSEQ is computed from PBUF here (R103). -/
def execSwrite (fmt : Nibble) (addr len : Byte) (s : State) : Out :=
  onCommand (commandWord opSwrite fmt addr len) s fun t =>
    onOpenStream t (withPayload len.toNat t fun p =>
      .next (startExchange .swrite len fmt (shortWriteFrame addr len p) t))

end Sys2Proof.Machine
end

