-- ==== Sys2Proof/Machine/WireFrames.lean ====
section
/-!
DEFINITION. The four wire frames as the engine moves them, one byte per atomic step (20_memory.md R50; 40_frame_codec.md R106,
R108 to R110). Each meaning is one engine step whose guard is its rule's guard; where the guard is false the rule is not
enabled and nothing changes (log 4). The end-of-stream step R107 belongs to no frame and is in Run.lean.
-/
namespace Sys2Proof.Machine

/-- SHORT_READ_REQ: where the frame being sent is [0x81, a, n, chk8(0x81 + a + n)], send its next byte (R102, R106). -/
def execShortReadReq (a n : Byte) (s : State) : Out :=
  if s.phase = .tx ∧ s.txseq = shortReadFrame a n then .next (transmit s) else .next s

/-- SHORT_WRITE_REQ: where the frame being sent is [0x01, a, n] ++ p ++ [checksum], send its next byte (R103, R106). -/
def execShortWriteReq (a n : Byte) (p : List Byte) (s : State) : Out :=
  if s.phase = .tx ∧ s.txseq = shortWriteFrame a n p then .next (transmit s) else .next s

/-- SHORT_READ_RESP: get() returns b, which is a payload byte while RXIDX < XLEN (R108) and the trailing byte when
RXIDX = XLEN (R109). -/
def execShortReadResp (b : Byte) (s : State) : Out :=
  if s.phase = .rx ∧ s.xop ≠ .swrite ∧ s.rxq.head? = some b then
    let t := { s with rxq := s.rxq.tail }
    if s.rxidx < s.xlen.toNat then .next (payloadStep b t)
    else if s.rxidx = s.xlen.toNat then trailingStep b t
    else .next s
  else .next s

/-- SHORT_WRITE_ACK: get() returns the ack byte k, which must equal the request's checksum byte (R78, R110). -/
def execShortWriteAck (k : Byte) (s : State) : Out :=
  if s.phase = .rx ∧ s.xop = .swrite ∧ s.rxq.head? = some k then
    .next (ackStep k { s with rxq := s.rxq.tail })
  else .next s

end Sys2Proof.Machine
end

