-- ==== Sys2Proof/Machine/Dispatch.lean ====
section
/-!
DEFINITION. The dispatch: each instruction to its meaning.
-/
namespace Sys2Proof.Machine

def exec (i : Instr) (s : State) : Host.Outcome State Fault Refusal :=
  match i with
  | .sread fmt addr len => Sys2Proof.Machine.execSread fmt addr len s
  | .swrite fmt addr len => Sys2Proof.Machine.execSwrite fmt addr len s
  | .decodeF1 addr len => Sys2Proof.Machine.execDecodeF1 addr len s
  | .decodeF2 addr len => Sys2Proof.Machine.execDecodeF2 addr len s
  | .decodeF3 addr len => Sys2Proof.Machine.execDecodeF3 addr len s
  | .decodeF4 addr len => Sys2Proof.Machine.execDecodeF4 addr len s
  | .decodeF5 addr len => Sys2Proof.Machine.execDecodeF5 addr len s
  | .decodeF6 addr len => Sys2Proof.Machine.execDecodeF6 addr len s
  | .decodeF7 addr len => Sys2Proof.Machine.execDecodeF7 addr len s
  | .decodeF8 addr len => Sys2Proof.Machine.execDecodeF8 addr len s
  | .decodeF2b addr len => Sys2Proof.Machine.execDecodeF2b addr len s
  | .decodeF3b addr len => Sys2Proof.Machine.execDecodeF3b addr len s
  | .decodeShsel addr len => Sys2Proof.Machine.execDecodeShsel addr len s
  | .decodeShlbl addr len => Sys2Proof.Machine.execDecodeShlbl addr len s
  | .decodeU8 addr len => Sys2Proof.Machine.execDecodeU8 addr len s
  | .rdchF1 addr len => Sys2Proof.Machine.execRdchF1 addr len s
  | .rdchF2 addr len => Sys2Proof.Machine.execRdchF2 addr len s
  | .rdchF3 addr len => Sys2Proof.Machine.execRdchF3 addr len s
  | .rdchF4 addr len => Sys2Proof.Machine.execRdchF4 addr len s
  | .rdchF5 addr len => Sys2Proof.Machine.execRdchF5 addr len s
  | .rdchF6 addr len => Sys2Proof.Machine.execRdchF6 addr len s
  | .rdchF7 addr len => Sys2Proof.Machine.execRdchF7 addr len s
  | .rdchF8 addr len => Sys2Proof.Machine.execRdchF8 addr len s
  | .rdchF2b addr len => Sys2Proof.Machine.execRdchF2b addr len s
  | .rdchF3b addr len => Sys2Proof.Machine.execRdchF3b addr len s
  | .rdchShsel addr len => Sys2Proof.Machine.execRdchShsel addr len s
  | .rdchShlbl addr len => Sys2Proof.Machine.execRdchShlbl addr len s
  | .rdchU8 addr len => Sys2Proof.Machine.execRdchU8 addr len s
  | .shortReadReq a n => Sys2Proof.Machine.execShortReadReq a n s
  | .shortWriteReq a n p => Sys2Proof.Machine.execShortWriteReq a n p s
  | .shortReadResp b => Sys2Proof.Machine.execShortReadResp b s
  | .shortWriteAck k => Sys2Proof.Machine.execShortWriteAck k s

end Sys2Proof.Machine
end

