-- ==== Sys2Proof/Machine/Run.lean ====
section
/-!
DEFINITION. One move of one agent (10_state.md R10, 20_memory.md R50): the host's accesses, the engine's byte steps, the
instrument's actions, and reset. A move that its rules do not enable changes nothing. DEDUCED (safe): log 4. Time and fairness are
left out. DESIGN CHOICE (safe): log 16.
-/
namespace Sys2Proof.Machine

/-- A store to CMD: the word's instruction runs, or the word completes as R74 says (40_frame_codec.md R111). DEDUCED (safe): log 13.
-/
def storeCommand (w : Word) (s : State) : Out :=
  match decode .command (wordBytes w) with
  | .ok i => exec i s
  | .error r => rejectCommand r w s

/-- A host store (20_memory.md R40, R41). -/
def hostStore (off size : Nat) (v : Word) (s : State) : Out :=
  if inWindow off then
    if supported off size then
      if off = 0x000 then storeCommand v s else .next (storeValue off size v s)
    else .refused (.unsupportedAccess off size)
  else .next s

/-- A host load by host address: outside the window it does not reach the block (20_memory.md R40). -/
def busLoad (addr size : Nat) (s : State) : Out :=
  match windowOffset addr with
  | some off => hostLoad off size s
  | none => .next s

/-- A host store by host address (20_memory.md R40). -/
def busStore (addr size : Nat) (v : Word) (s : State) : Out :=
  match windowOffset addr with
  | some off => hostStore off size v s
  | none => .next s

/-- One engine step (40_frame_codec.md R106 to R110). While TX the frame in TXSEQ is the instruction; while RX the next byte
is, under the frame that the exchange expects (30_encoding.md R79), and EOF completes with EOS (R107). While IDLE, and while
RX with nothing to take, no step is enabled (R104). -/
def engineMove (s : State) : Out :=
  match s.phase with
  | .idle => .next s
  | .tx =>
    match decode .request s.txseq with
    | .ok i => exec i s
    | .error _ => .next (transmit s)
  | .rx =>
    match get s with
    | .hold => .next s
    | .eof => .next (complete .eos 0 s)
    | .byte b _ =>
      match s.xop with
      | .sread => exec (.shortReadResp b) s
      | .rdch => exec (.shortReadResp b) s
      | .swrite => exec (.shortWriteAck b) s

/-- The instrument sends a byte; after the end of the stream it sends none (10_state.md R19). -/
def instrumentByte (b : Byte) (s : State) : State := if s.rxend then s else { s with rxq := s.rxq ++ [b] }

/-- The instrument ends the stream (10_state.md R19). -/
def instrumentEnd (s : State) : State := { s with rxend := true }

/-- Reset: every piece of block state to its value after reset; the transport and the agents outside keep theirs
(70_reset_and_hazards.md R230 to R232). -/
def resetBlock (s : State) : State :=
  { State.reset with
    txs := s.txs, rxq := s.rxq, rxend := s.rxend, agenda := s.agenda, tick := s.tick, hostIn := s.hostIn }

/-- One move. -/
def runMove (m : Move) (s : State) : Out :=
  match m with
  | .hostRead off size => hostLoad off size s
  | .hostWrite off size v => hostStore off size v s
  | .engine => engineMove s
  | .instrByte b => .next (instrumentByte b s)
  | .instrEnd => .next (instrumentEnd s)
  | .reset => .next (resetBlock s)

/-- The next move: the agenda's first, else a free one (R10, R247; logs 1 and 2). -/
def nextMove (s : State) : Move :=
  match s.agenda with
  | m :: _ => m
  | [] => Config.freeMove s.tick

/-- The state with its next move taken off. -/
def popMove (s : State) : State :=
  match s.agenda with
  | _ :: ms => { s with agenda := ms }
  | [] => { s with tick := s.tick + 1 }

/-- The state whose next step runs the instruction of an opcode-table word: for a short-read request frame, the exchange
that sends it has been started and the engine moves; for a command word, the host stores it to CMD (log 3). -/
def placeTableWord (s : State) (nbits w : Nat) : State :=
  match decodeTableWord nbits w with
  | some (.shortReadReq a n) =>
    { startExchange .sread n 0 (shortReadFrame a n) s with agenda := .engine :: s.agenda }
  | _ => { s with agenda := .hostWrite 0x000 4 (BitVec.ofNat 32 w) :: s.agenda }

end Sys2Proof.Machine
end

