-- ==== Sys2Proof/Machine/Step.lean ====
section
/-!
DEFINITION. The machine's step: one atomic step of one agent (20_memory.md R50, R51).
-/
namespace Sys2Proof.Machine

/-- One step: the next move is taken off and made. -/
def step (s : State) : Host.Outcome State Fault Refusal := runMove (nextMove s) (popMove s)

/-- The state with an opcode-table word's instruction placed where the next step runs it (log 3). -/
def State.withFetchWord (s : State) (nbits w : Nat) : State := placeTableWord s nbits w

end Sys2Proof.Machine
end

