-- ==== Sys2Proof/Safety.lean ====
section
/-!
DEFINITION. The terms that claims use: the invariants of 10_state.md R25 and of the engine's state (R16 to R20), the bytes that
PBUF holds, and the instrument's encoder of 41_value_decoder.md R159.
-/
namespace Sys2Proof.Machine

/-- The invariants that R25 lists. -/
structure StatusInv (s : State) : Prop where
  busy_clears : s.busy = true → s.done = false ∧ s.ok = false ∧ s.err = .none
  ok_done : s.ok = true → s.done = true ∧ s.err = .none
  failed_err : s.done = true → s.ok = false → s.err ≠ .none
  eos_eosf : s.err = .eos → s.eosf = true
  tx_bound : s.phase = .tx → s.txidx < s.txseq.length
  rx_bound : s.phase = .rx → s.txidx = s.txseq.length

/-- PBUF[0..n-1] hold the bytes p, n the length of p. -/
def PbufHolds (m : Memory) (p : List Byte) : Prop := ∀ k (h : k < p.length), Memory.read m k = some p[k]

/-- What R16 to R20 say of the block's state in every run: BUSY is PHASE's shadow (R18); a completion returns the engine to
(IDLE, 0, 0) (R20); the frame being sent is one of the two request shapes, at most 259 bytes, and TXCHK is its checksum byte
(R15, R20, 30_encoding.md R80); the payload bytes taken so far stand in PBUF and ACC is their sum (R16, R18); an RDCH exchange
has a legal format and that format's length (42_channel_read.md R180); CMD's reserved bits are 0 (R12); PBUF is in canonical
form. -/
structure BlockInv (s : State) : Prop where
  busy_phase : s.busy = true ↔ s.phase ≠ .idle
  idle_zero : s.phase = .idle → s.txidx = 0 ∧ s.rxidx = 0 ∧ s.acc = 0
  tx_zero : s.phase = .tx → s.txidx < s.txseq.length ∧ s.rxidx = 0 ∧ s.acc = 0
  rx_sent : s.phase = .rx → s.txidx = s.txseq.length ∧ s.rxidx ≤ s.xlen.toNat
  frame_legal : s.phase ≠ .idle → ∃ i, decode .request s.txseq = .ok i
  frame_check : s.phase ≠ .idle → s.txseq.length ≤ 259 ∧ s.txseq.getLast? = some s.txchk
  payload_taken : s.phase = .rx → s.xop ≠ .swrite →
    ∃ p, p.length = s.rxidx ∧ PbufHolds s.pbuf p ∧ s.acc = BitVec.ofNat 8 (byteSum p)
  ack_first : s.phase = .rx → s.xop = .swrite → s.rxidx = 0
  channel_format : s.phase ≠ .idle → s.xop = .rdch →
    ∃ f, Format.ofCode s.xfmt = some f ∧ s.xlen.toNat = fmtlen f
  cmd_reserved : s.cmd.toNat < 2 ^ 24
  pbuf_wf : Memory.wf s.pbuf = true

/-- The instrument's encoder of a value v (R159). -/
def encSI (v : Int) (W S : Nat) : Nat :=
  if 0 < v then 2 ^ (W - 1) ||| ((2 ^ W - 1 - (v.natAbs <<< S)) &&& (2 ^ (W - 1) - 1))
  else (v.natAbs <<< S) &&& (2 ^ (W - 1) - 1)

/-- The n payload bytes of a raw value, least significant first (20_memory.md R48). -/
def leBytes : Nat → Nat → List Byte
  | 0, _ => []
  | n + 1, v => BitVec.ofNat 8 v :: leBytes n (v / 256)

/-- The ranges of R158's table. -/
def resultRange : Format → Int × Int
  | .f1 => (0, 10235)
  | .f2 => (-8388600, 8388600)
  | .f2b => (-838860000, 838860000)
  | .f3 => (-8388607, 8388607)
  | .f3b => (-838860700, 838860700)
  | .f4 => (-16777215, 16777215)
  | .f5 => (-2147483647, 2147483647)
  | .f6 => (0, 25500)
  | .f7 => (-32768, 32767)
  | .f8 => (-1280, 1270)
  | .shsel => (0, 7)
  | .shlbl => (0, 7)
  | .u8 => (0, 255)

/-- k steps, stopping at the first fault or refusal. -/
def steps : Nat → State → Out
  | 0, s => .next s
  | k + 1, s =>
    match step s with
    | .next t => steps k t
    | .fault r => .fault r
    | .refused r => .refused r

/-- A state with moves put before what its agenda holds. -/
def State.plan (s : State) (ms : List Move) : State := { s with agenda := ms ++ s.agenda }

/-- The moves of a command: the host stores its word to CMD, then the engine moves k times. -/
def commandThenEngine (w : Word) (k : Nat) : List Move := .hostWrite 0x000 4 w :: List.replicate k .engine

end Sys2Proof.Machine
end

