-- ==== Sys2Proof/Certificates/Slice0/Obligations.lean ====
section
/-!
DEFINITION. The statements about the block, each from the rules it cites. An equation `exec i s = .next { s with ... }` says the
instruction's result and its frame at once: every field that is not named keeps its value.
-/
open Sys2Proof Sys2Proof.Machine

/-! ## Encodings and checksums -/

/-- R70 to R73, R75 to R78: decoding what the encoder writes gives the instruction back, for every well-formed instruction
and every value of every operand. -/
def Obligations.DecodeOfEncode : Prop := ∀ i : Instr, i.wf = true → decode i.port (encode i) = .ok i

/-- R70, R71: a word that decodes is the encoding of what it decodes to, except bits 31:24, which are ignored. -/
def Obligations.CommandWordOfDecode : Prop :=
  ∀ (w : Word) (i : Instr), decode .command (wordBytes w) = .ok i →
    i.wf = true ∧ i.port = .command ∧ encode i = wordBytes (w &&& 0x00FFFFFF)

/-- R75, R77, R80: bytes that decode as a request frame are exactly the frame of the well-formed instruction they decode to. -/
def Obligations.RequestFrameOfDecode : Prop :=
  ∀ (bs : List Byte) (i : Instr), decode .request bs = .ok i → i.wf = true ∧ i.port = .request ∧ encode i = bs

/-- R70 to R73, R75, R77: words and frames written out from the spec's tables decode to their instructions: SREAD, SWRITE, every
one of the 26 DECODE and RDCH rows by the FMT number that R73's table gives it, and one frame of each request shape. -/
def Obligations.SampleWordsDecode : Prop :=
  decode .command [0x01, 0x01, 0x02, 0x00] = .ok (.sread 0 0x01 0x02)
  ∧ decode .command [0x02, 0x27, 0x01, 0x00] = .ok (.swrite 0 0x27 0x01)
  ∧ decode .command [0x13, 0xFF, 0x09, 0x00] = .ok (.decodeF1 0xFF 0x09)
  ∧ decode .command [0x23, 0xFF, 0x09, 0x00] = .ok (.decodeF2 0xFF 0x09)
  ∧ decode .command [0x33, 0xFF, 0x09, 0x00] = .ok (.decodeF3 0xFF 0x09)
  ∧ decode .command [0x43, 0xFF, 0x09, 0x00] = .ok (.decodeF4 0xFF 0x09)
  ∧ decode .command [0x53, 0xFF, 0x09, 0x00] = .ok (.decodeF5 0xFF 0x09)
  ∧ decode .command [0x63, 0xFF, 0x09, 0x00] = .ok (.decodeF6 0xFF 0x09)
  ∧ decode .command [0x73, 0xFF, 0x09, 0x00] = .ok (.decodeF7 0xFF 0x09)
  ∧ decode .command [0x83, 0xFF, 0x09, 0x00] = .ok (.decodeF8 0xFF 0x09)
  ∧ decode .command [0x93, 0xFF, 0x09, 0x00] = .ok (.decodeF2b 0xFF 0x09)
  ∧ decode .command [0xA3, 0xFF, 0x09, 0x00] = .ok (.decodeF3b 0xFF 0x09)
  ∧ decode .command [0xB3, 0xFF, 0x09, 0x00] = .ok (.decodeShsel 0xFF 0x09)
  ∧ decode .command [0xC3, 0xFF, 0x09, 0x00] = .ok (.decodeShlbl 0xFF 0x09)
  ∧ decode .command [0xD3, 0xFF, 0x09, 0x00] = .ok (.decodeU8 0xFF 0x09)
  ∧ decode .command [0x14, 0xF6, 0x09, 0x00] = .ok (.rdchF1 0xF6 0x09)
  ∧ decode .command [0x24, 0xF6, 0x09, 0x00] = .ok (.rdchF2 0xF6 0x09)
  ∧ decode .command [0x34, 0xF6, 0x09, 0x00] = .ok (.rdchF3 0xF6 0x09)
  ∧ decode .command [0x44, 0xF6, 0x09, 0x00] = .ok (.rdchF4 0xF6 0x09)
  ∧ decode .command [0x54, 0xF6, 0x09, 0x00] = .ok (.rdchF5 0xF6 0x09)
  ∧ decode .command [0x64, 0xF6, 0x09, 0x00] = .ok (.rdchF6 0xF6 0x09)
  ∧ decode .command [0x74, 0xF6, 0x09, 0x00] = .ok (.rdchF7 0xF6 0x09)
  ∧ decode .command [0x84, 0xF6, 0x09, 0x00] = .ok (.rdchF8 0xF6 0x09)
  ∧ decode .command [0x94, 0xF6, 0x09, 0x00] = .ok (.rdchF2b 0xF6 0x09)
  ∧ decode .command [0xA4, 0xF6, 0x09, 0x00] = .ok (.rdchF3b 0xF6 0x09)
  ∧ decode .command [0xB4, 0xF6, 0x09, 0x00] = .ok (.rdchShsel 0xF6 0x09)
  ∧ decode .command [0xC4, 0xF6, 0x09, 0x00] = .ok (.rdchShlbl 0xF6 0x09)
  ∧ decode .command [0xD4, 0xF6, 0x09, 0x00] = .ok (.rdchU8 0xF6 0x09)
  ∧ decode .request [0x81, 0x01, 0x02, 0x7B] = .ok (.shortReadReq 0x01 0x02)
  ∧ decode .request [0x01, 0x27, 0x01, 0x5A, 0x7C] = .ok (.shortWriteReq 0x27 0x01 [0x5A])

/-- R72 to R74: a command word is rejected as ILLEGAL_OP exactly when OP is 0 or 5 to 15, as ILLEGAL_FMT exactly when OP is 3
or 4 and FMT is 0, 14 or 15, and for no other reason. -/
def Obligations.IllegalCommandWords : Prop :=
  ∀ w : Word,
    (decode .command (wordBytes w) = .error .illegalOp ↔ w.toNat % 16 = 0 ∨ 5 ≤ w.toNat % 16)
    ∧ (decode .command (wordBytes w) = .error .illegalFmt ↔
        (w.toNat % 16 = 3 ∨ w.toNat % 16 = 4) ∧ (w.toNat / 16 % 16 = 0 ∨ 14 ≤ w.toNat / 16 % 16))
    ∧ (∀ r, decode .command (wordBytes w) = .error r → r = .illegalOp ∨ r = .illegalFmt)

/-- R100: the checksum-closing byte is the one's complement of the 8-bit sum; the rule's worked example. -/
def Obligations.ChecksumByte : Prop :=
  (∀ s : Nat, (chk8 s).toNat = 0xFF - s % 256 ∧ chk8 s = ~~~ (BitVec.ofNat 8 s))
  ∧ chk8 (0x81 + 0x01 + 0x02) = 0x7B

/-- R101, R118: a closed frame sums to 0xFF mod 256, and the checksum byte is the only byte that makes it so; and verify holds
of every request frame that the block can send. -/
def Obligations.FrameSumLaw : Prop :=
  (∀ B : List Byte,
    byteSum (B ++ [chk8 (byteSum B)]) % 256 = 0xFF
    ∧ ∀ c : Byte, byteSum (B ++ [c]) % 256 = 0xFF → c = chk8 (byteSum B))
  ∧ ∀ (bs : List Byte) (i : Instr), decode .request bs = .ok i → frameSumOk bs = true

/-! ## The step runs the decoded instruction -/

/-- R70, R111: a 4-byte host store at offset 0 whose word decodes runs the instruction, on the state with the move taken off. That
a step is one move from the agenda is the model's choice (log 1). -/
def Obligations.StepRunsDecodedCommand : Prop :=
  ∀ (s : State) (w : Word) (i : Instr), nextMove s = .hostWrite 0x000 4 w → decode .command (wordBytes w) = .ok i →
    step s = exec i (popMove s)

/-- R79, R106 to R110: an engine move runs the request frame in TXSEQ while TX, and while RX the next byte of the response that
the exchange expects. That a wire row is one byte step is the model's choice (log 12). -/
def Obligations.StepRunsDecodedFrame : Prop :=
  ∀ s : State, nextMove s = .engine →
    (∀ i, s.phase = .tx → decode .request s.txseq = .ok i → step s = exec i (popMove s))
    ∧ (∀ b rest, s.phase = .rx → s.rxq = b :: rest → s.xop ≠ .swrite → step s = exec (.shortReadResp b) (popMove s))
    ∧ (∀ b rest, s.phase = .rx → s.rxq = b :: rest → s.xop = .swrite → step s = exec (.shortWriteAck b) (popMove s))

/-! ## Commands: where each completes, its result and its frame -/

/-- R112, R111, R102: SREAD, met idle with the stream open, starts the exchange. -/
def Obligations.SreadStartsExchange : Prop :=
  ∀ (fmt : Nibble) (a n : Byte) (s : State), s.busy = false → s.eosf = false →
    exec (.sread fmt a n) s = .next { s with
      cmd := BitVec.ofNat 32 (1 + 16 * fmt.toNat + 256 * a.toNat + 65536 * n.toNat)
      done := false, ok := false, err := .none, result := 0
      xop := .sread, xlen := n, xfmt := fmt
      txseq := [0x81, a, n, chk8 (0x81 + a.toNat + n.toNat)]
      txchk := chk8 (0x81 + a.toNat + n.toNat), rxchk := 0, rxsum := 0
      txidx := 0, rxidx := 0, acc := 0, phase := .tx, busy := true }

/-- R113, R111, R103: SWRITE, met idle with the stream open and its payload written, starts the exchange. -/
def Obligations.SwriteStartsExchange : Prop :=
  ∀ (fmt : Nibble) (a n : Byte) (p : List Byte) (s : State),
    s.busy = false → s.eosf = false → p.length = n.toNat → PbufHolds s.pbuf p →
    exec (.swrite fmt a n) s = .next { s with
      cmd := BitVec.ofNat 32 (2 + 16 * fmt.toNat + 256 * a.toNat + 65536 * n.toNat)
      done := false, ok := false, err := .none, result := 0
      xop := .swrite, xlen := n, xfmt := fmt
      txseq := 0x01 :: a :: n :: p ++ [chk8 (0x01 + a.toNat + n.toNat + byteSum p)]
      txchk := chk8 (0x01 + a.toNat + n.toNat + byteSum p), rxchk := 0, rxsum := 0
      txidx := 0, rxidx := 0, acc := 0, phase := .tx, busy := true }

/-- R160, R203: DECODE.f, met idle with its payload written, completes in the same step; the thirteen DECODE rows. -/
def Obligations.DecodeCompletesAtOnce : Prop :=
  ∀ (f : Format) (addr len : Byte) (p : List Byte) (s : State),
    s.busy = false → p.length = fmtlen f → PbufHolds s.pbuf p →
    exec (Instr.decodeRow f addr len) s = .next { s with
      cmd := BitVec.ofNat 32 (3 + 16 * f.code.toNat + 256 * addr.toNat + 65536 * len.toNat)
      busy := false, done := true, ok := true, err := .none
      result := BitVec.ofInt 32 (decodeValue f p)
      phase := .idle, txidx := 0, rxidx := 0, acc := 0 }

/-- R180, R111, R102: RDCH.f, met idle with the stream open, starts a short read of fmtlen(f) bytes, whatever LEN holds; the
thirteen RDCH rows. -/
def Obligations.RdchStartsExchange : Prop :=
  ∀ (f : Format) (a len : Byte) (s : State), s.busy = false → s.eosf = false →
    exec (Instr.rdchRow f a len) s = .next { s with
      cmd := BitVec.ofNat 32 (4 + 16 * f.code.toNat + 256 * a.toNat + 65536 * len.toNat)
      done := false, ok := false, err := .none, result := 0
      xop := .rdch, xlen := BitVec.ofNat 8 (fmtlen f), xfmt := f.code
      txseq := [0x81, a, BitVec.ofNat 8 (fmtlen f), chk8 (0x81 + a.toNat + fmtlen f)]
      txchk := chk8 (0x81 + a.toNat + fmtlen f), rxchk := 0, rxsum := 0
      txidx := 0, rxidx := 0, acc := 0, phase := .tx, busy := true }

/-- R201 checks 1 and 2, R203, R74: a reserved OP, or a reserved FMT under DECODE or RDCH, completes at once with its error; CMD
holds the word's bits 23:0 and no byte is sent. -/
def Obligations.IllegalCommandsComplete : Prop :=
  ∀ (w : Word) (s : State), nextMove s = .hostWrite 0x000 4 w → s.busy = false →
    (w.toNat % 16 = 0 ∨ 5 ≤ w.toNat % 16 →
      step s = .next { popMove s with
        cmd := BitVec.ofNat 32 (w.toNat % 2 ^ 24)
        done := true, ok := false, err := .illegalOp, result := 0
        phase := .idle, txidx := 0, rxidx := 0, acc := 0 })
    ∧ ((w.toNat % 16 = 3 ∨ w.toNat % 16 = 4) → (w.toNat / 16 % 16 = 0 ∨ 14 ≤ w.toNat / 16 % 16) →
      step s = .next { popMove s with
        cmd := BitVec.ofNat 32 (w.toNat % 2 ^ 24)
        done := true, ok := false, err := .illegalFmt, result := 0
        phase := .idle, txidx := 0, rxidx := 0, acc := 0 })

/-- R201 check 3, R244: with EOSF = 1, SREAD, SWRITE and every RDCH complete at once with EOS; nothing is sent and CHKINFO
keeps its value. -/
def Obligations.TransportRefusedAfterEos : Prop :=
  ∀ (fmt : Nibble) (f : Format) (a n : Byte) (s : State), s.busy = false → s.eosf = true →
    ∀ i ∈ [Instr.sread fmt a n, Instr.swrite fmt a n, Instr.rdchRow f a n],
      ∃ c : Word, wordBytes c = encode i ∧
        exec i s = .next { s with
          cmd := c, done := true, ok := false, err := .eos, result := 0
          phase := .idle, txidx := 0, rxidx := 0, acc := 0 }

/-- R17, R201 check 4, R160: an SWRITE with the stream open, or a DECODE, that would consume a never-written PBUF byte is fault
UnwrittenPayload. -/
def Obligations.UnwrittenPayloadFaults : Prop :=
  ∀ (fmt : Nibble) (f : Format) (a n : Byte) (k : Nat) (s : State), s.busy = false → Memory.read s.pbuf k = none →
    (s.eosf = false → k < n.toNat → exec (.swrite fmt a n) s = .fault .unwrittenPayload)
    ∧ (k < fmtlen f → exec (Instr.decodeRow f a n) s = .fault .unwrittenPayload)

/-- R240: while BUSY, a CMD or PBUF write is ignored and sets OVR; loads and STATUS writes work as when idle. That the loaded value
goes to hostIn, a byte zero-extended, is the model's choice (logs 8, 17). -/
def Obligations.WritesWhileBusy : Prop :=
  ∀ s : State, s.busy = true →
    (∀ w, nextMove s = .hostWrite 0x000 4 w → step s = .next { popMove s with ovr := true })
    ∧ (∀ off size v, nextMove s = .hostWrite off size v → 0x100 ≤ off → off < 0x200 →
        (size = 1 ∨ size = 4 ∧ off % 4 = 0) → step s = .next { popMove s with ovr := true })
    ∧ (∀ v, nextMove s = .hostWrite 0x004 4 v →
        step s = .next { popMove s with ovr := s.ovr && !v.getLsbD 9 })
    ∧ (∀ off size, nextMove s = .hostRead off size → (size = 4 ∧ off % 4 = 0 ∧ off < 0x100) →
        ∃ v, step s = .next { popMove s with hostIn := s.hostIn ++ [v] })
    ∧ (∀ off b, nextMove s = .hostRead (0x100 + off) 1 → off < 0x100 → Memory.read s.pbuf off = some b →
        step s = .next { popMove s with hostIn := s.hostIn ++ [b.setWidth 32] })

/-! ## The value decoder -/

/-- R144, R152: the two-byte formats. F1 is the low 11 bits of the raw value, times 5; F7 is the 16-bit two's-complement value. -/
def Obligations.DecodeTwoByteValues : Prop :=
  ∀ (b0 b1 addr len : Byte) (raw : Nat) (s : State), s.busy = false → PbufHolds s.pbuf [b0, b1] →
    raw = b0.toNat + 256 * b1.toNat →
    (∃ t, exec (.decodeF1 addr len) s = .next t ∧ t.result.toInt = 5 * ((raw % 2048 : Nat) : Int))
    ∧ (∃ t, exec (.decodeF7 addr len) s = .next t
        ∧ t.result.toInt = if raw < 2 ^ 15 then (raw : Int) else (raw : Int) - 2 ^ 16)

/-- R147, R148, R143: F3 is the plain magnitude negated where bit 23 is clear, the inverted magnitude where it is set; F3b is F3
times 100. -/
def Obligations.DecodeF3Values : Prop :=
  ∀ (b0 b1 b2 addr len : Byte) (raw : Nat) (s : State), s.busy = false → PbufHolds s.pbuf [b0, b1, b2] →
    raw = b0.toNat + 256 * b1.toNat + 65536 * b2.toNat →
    (∃ t, exec (.decodeF3 addr len) s = .next t
      ∧ t.result.toInt = if raw < 2 ^ 23 then -(raw : Int) else ((2 ^ 24 - 1 - raw : Nat) : Int))
    ∧ (∃ t, exec (.decodeF3b addr len) s = .next t
      ∧ t.result.toInt = if raw < 2 ^ 23 then -(100 * raw : Int) else ((100 * (2 ^ 24 - 1 - raw) : Nat) : Int))

/-- R145, R146, R141: F2 is F3 rounded toward zero to a multiple of 10; F2b is F2 times 100. -/
def Obligations.DecodeF2Values : Prop :=
  ∀ (b0 b1 b2 addr len : Byte) (raw : Nat) (s : State), s.busy = false → PbufHolds s.pbuf [b0, b1, b2] →
    raw = b0.toNat + 256 * b1.toNat + 65536 * b2.toNat →
    (∃ t, exec (.decodeF2 addr len) s = .next t
      ∧ t.result.toInt =
        if raw < 2 ^ 23 then -((10 * (raw / 10) : Nat) : Int) else ((10 * ((2 ^ 24 - 1 - raw) / 10) : Nat) : Int))
    ∧ (∃ t, exec (.decodeF2b addr len) s = .next t
      ∧ t.result.toInt =
        if raw < 2 ^ 23 then -((1000 * (raw / 10) : Nat) : Int) else ((1000 * ((2 ^ 24 - 1 - raw) / 10) : Nat) : Int))

/-- R149, R150, R143: the four-byte formats. F5 is the 32-bit sign-by-inversion value; F4 strips the low 7 bits of the 31-bit
magnitude before the sign. -/
def Obligations.DecodeFourByteValues : Prop :=
  ∀ (b0 b1 b2 b3 addr len : Byte) (raw : Nat) (s : State), s.busy = false → PbufHolds s.pbuf [b0, b1, b2, b3] →
    raw = b0.toNat + 256 * b1.toNat + 65536 * b2.toNat + 16777216 * b3.toNat →
    (∃ t, exec (.decodeF4 addr len) s = .next t
      ∧ t.result.toInt = if raw < 2 ^ 31 then -((raw / 128 : Nat) : Int) else (((2 ^ 32 - 1 - raw) / 128 : Nat) : Int))
    ∧ (∃ t, exec (.decodeF5 addr len) s = .next t
      ∧ t.result.toInt = if raw < 2 ^ 31 then -(raw : Int) else ((2 ^ 32 - 1 - raw : Nat) : Int))

/-- R151, R153, R156: the one-byte formats F6, F8 and U8. -/
def Obligations.DecodeOneByteValues : Prop :=
  ∀ (b addr len : Byte) (s : State), s.busy = false → PbufHolds s.pbuf [b] →
    (∃ t, exec (.decodeF6 addr len) s = .next t ∧ t.result.toInt = 100 * (b.toNat : Int))
    ∧ (∃ t, exec (.decodeF8 addr len) s = .next t
        ∧ t.result.toInt = 10 * (if b.toNat < 128 then (b.toNat : Int) else (b.toNat : Int) - 256))
    ∧ (∃ t, exec (.decodeU8 addr len) s = .next t ∧ t.result.toInt = (b.toNat : Int))

/-- R154, R155: bit i of SHSEL is bit 4 of payload byte i, bit i of SHLBL is LABEL_TEST of payload byte i, and every other bit
is 0. -/
def Obligations.DecodeShuntBits : Prop :=
  ∀ (p : List Byte) (addr len : Byte) (s : State), s.busy = false → p.length = 3 → PbufHolds s.pbuf p →
    (∃ t, exec (.decodeShsel addr len) s = .next t
      ∧ (∀ i (h : i < p.length), t.result.getLsbD i = p[i].getLsbD 4) ∧ ∀ i, 3 ≤ i → t.result.getLsbD i = false)
    ∧ (∃ t, exec (.decodeShlbl addr len) s = .next t
      ∧ (∀ i (h : i < p.length), t.result.getLsbD i = Config.labelTest p[i]) ∧ ∀ i, 3 ≤ i → t.result.getLsbD i = false)

/-- R141: trunc_div rounds toward zero; the rule's two examples. -/
def Obligations.TruncatingDivision : Prop :=
  (∀ (a : Int) (b : Nat), 0 < b →
    truncDiv a b = a.sign * ((a.natAbs / b : Nat) : Int)
    ∧ truncDiv a b = (if 0 ≤ a then a / (b : Int) else -((-a) / (b : Int))))
  ∧ truncDiv (-1235) 10 = -123 ∧ truncDiv 1235 10 = 123

/-- R158: every decoded value lies in its format's range, and RESULT holds it exactly. -/
def Obligations.ResultRanges : Prop :=
  ∀ (f : Format) (p : List Byte), p.length = fmtlen f →
    (resultRange f).1 ≤ decodeValue f p ∧ decodeValue f p ≤ (resultRange f).2
    ∧ (BitVec.ofInt 32 (decodeValue f p)).toInt = decodeValue f p

/-- R159: decoding what the instrument's encoder makes of v gives v back, for F3, F4 and F5, and 100 v for F3b. -/
def Obligations.SignByInversionRoundTrip : Prop :=
  (∀ W S, (W, S) ∈ [(24, 0), (32, 7), (32, 0)] → ∀ v : Int, v.natAbs ≤ 2 ^ (W - 1 - S) - 1 →
    signByInversion (encSI v W S) W S = v)
  ∧ (∀ v : Int, v.natAbs ≤ 2 ^ 23 - 1 → decodeValue .f3 (leBytes 3 (encSI v 24 0)) = v
      ∧ decodeValue .f3b (leBytes 3 (encSI v 24 0)) = 100 * v)
  ∧ (∀ v : Int, v.natAbs ≤ 2 ^ 24 - 1 → decodeValue .f4 (leBytes 4 (encSI v 32 7)) = v)
  ∧ (∀ v : Int, v.natAbs ≤ 2 ^ 31 - 1 → decodeValue .f5 (leBytes 4 (encSI v 32 0)) = v)

/-- R157: what DECODE puts into RESULT depends on the payload bytes alone: two idle states that agree on PBUF[0..n-1] get the
same RESULT, whatever else they hold, and whatever ADDR and LEN hold. -/
def Obligations.DecodeReadsPayloadOnly : Prop :=
  ∀ (f : Format) (a1 n1 a2 n2 : Byte) (s1 s2 t1 t2 : State), s1.busy = false → s2.busy = false →
    (∀ k, k < fmtlen f → Memory.read s1.pbuf k = Memory.read s2.pbuf k) →
    exec (Instr.decodeRow f a1 n1) s1 = .next t1 → exec (Instr.decodeRow f a2 n2) s2 = .next t2 →
    t1.result = t2.result

/-! ## Engine steps -/

/-- R106, R102: sending SHORT_READ_REQ puts the frame's next byte; after the fourth the engine turns round to RX. -/
def Obligations.ShortReadRequestSends : Prop :=
  ∀ (a n b : Byte) (s : State), s.phase = .tx → s.txseq = [0x81, a, n, chk8 (0x81 + a.toNat + n.toNat)] →
    s.txseq[s.txidx]? = some b →
    exec (.shortReadReq a n) s = .next { s with
      txs := s.txs ++ [b], txidx := s.txidx + 1
      phase := if s.txidx = 3 then .rx else .tx
      rxidx := if s.txidx = 3 then 0 else s.rxidx
      acc := if s.txidx = 3 then 0 else s.acc }

/-- R106, R103: sending SHORT_WRITE_REQ puts the frame's next byte; after the last, byte n + 3, the engine turns round. -/
def Obligations.ShortWriteRequestSends : Prop :=
  ∀ (a n b : Byte) (p : List Byte) (s : State), s.phase = .tx → p.length = n.toNat →
    s.txseq = 0x01 :: a :: n :: p ++ [chk8 (0x01 + a.toNat + n.toNat + byteSum p)] →
    s.txseq[s.txidx]? = some b →
    exec (.shortWriteReq a n p) s = .next { s with
      txs := s.txs ++ [b], txidx := s.txidx + 1
      phase := if s.txidx = n.toNat + 3 then .rx else .tx
      rxidx := if s.txidx = n.toNat + 3 then 0 else s.rxidx
      acc := if s.txidx = n.toNat + 3 then 0 else s.acc }

/-- R106: in every state with PHASE = TX and a byte left in TXSEQ, an engine move puts that byte and sets no flag. -/
def Obligations.TransmitStep : Prop :=
  ∀ (s : State) (b : Byte), nextMove s = .engine → s.phase = .tx → s.txseq[s.txidx]? = some b →
    step s = .next (if s.txidx + 1 = s.txseq.length
      then { popMove s with txs := s.txs ++ [b], txidx := s.txidx + 1, phase := .rx, rxidx := 0, acc := 0 }
      else { popMove s with txs := s.txs ++ [b], txidx := s.txidx + 1 })

/-- R108: a payload byte of SHORT_READ_RESP goes to PBUF[RXIDX], into ACC, and advances RXIDX; every other byte of PBUF and
every other field keep their values. -/
def Obligations.ResponsePayloadByte : Prop :=
  ∀ (b : Byte) (rest : List Byte) (s : State), s.phase = .rx → s.xop ≠ .swrite → s.rxq = b :: rest →
    s.rxidx < s.xlen.toNat →
    ∃ m : Memory, Memory.read m s.rxidx = some b ∧ (∀ k, k ≠ s.rxidx → Memory.read m k = Memory.read s.pbuf k)
      ∧ exec (.shortReadResp b) s = .next { s with
          rxq := rest, pbuf := m, acc := BitVec.ofNat 8 ((s.acc.toNat + b.toNat) % 256), rxidx := s.rxidx + 1 }

/-- R109, R203: the trailing byte of SHORT_READ_RESP ends an SREAD exchange, with success exactly when ACC + t is 0xFF mod 256. -/
def Obligations.ResponseTrailingByteOfSread : Prop :=
  ∀ (t : Byte) (rest : List Byte) (s : State), s.phase = .rx → s.xop = .sread → s.rxq = t :: rest →
    s.rxidx = s.xlen.toNat →
    exec (.shortReadResp t) s = .next { s with
      rxq := rest, rxchk := t, rxsum := BitVec.ofNat 8 ((s.acc.toNat + t.toNat) % 256)
      busy := false, done := true, ok := decide ((s.acc.toNat + t.toNat) % 256 = 0xFF)
      err := if (s.acc.toNat + t.toNat) % 256 = 0xFF then .none else .chksum
      result := 0, phase := .idle, txidx := 0, rxidx := 0, acc := 0 }

/-- R109, R180, R203: the trailing byte of SHORT_READ_RESP ends an RDCH exchange, with the decoded payload where ACC + t is 0xFF
mod 256, and with CHKSUM and RESULT 0 where it is not. -/
def Obligations.ResponseTrailingByteOfRdch : Prop :=
  ∀ (t : Byte) (rest p : List Byte) (f : Format) (s : State), s.phase = .rx → s.xop = .rdch → s.rxq = t :: rest →
    s.rxidx = s.xlen.toNat → s.xfmt = f.code → p.length = fmtlen f → PbufHolds s.pbuf p →
    exec (.shortReadResp t) s = .next { s with
      rxq := rest, rxchk := t, rxsum := BitVec.ofNat 8 ((s.acc.toNat + t.toNat) % 256)
      busy := false, done := true, ok := decide ((s.acc.toNat + t.toNat) % 256 = 0xFF)
      err := if (s.acc.toNat + t.toNat) % 256 = 0xFF then .none else .chksum
      result := if (s.acc.toNat + t.toNat) % 256 = 0xFF then BitVec.ofInt 32 (decodeValue f p) else 0
      phase := .idle, txidx := 0, rxidx := 0, acc := 0 }

/-- R110, R203: SHORT_WRITE_ACK ends an SWRITE exchange, with success exactly when the ack byte is TXCHK. -/
def Obligations.AckByte : Prop :=
  ∀ (k : Byte) (rest : List Byte) (s : State), s.phase = .rx → s.xop = .swrite → s.rxq = k :: rest →
    exec (.shortWriteAck k) s = .next { s with
      rxq := rest, rxchk := k, rxsum := 0
      busy := false, done := true, ok := decide (k = s.txchk), err := if k = s.txchk then .none else .chksum
      result := 0, phase := .idle, txidx := 0, rxidx := 0, acc := 0 }

/-- R107, R203: an engine move in RX with no byte queued and the stream ended completes with EOS and sets EOSF. -/
def Obligations.EndOfStreamStep : Prop :=
  ∀ s : State, nextMove s = .engine → s.phase = .rx → s.rxq = [] → s.rxend = true →
    step s = .next { popMove s with
      busy := false, done := true, ok := false, err := .eos, eosf := true
      result := 0, phase := .idle, txidx := 0, rxidx := 0, acc := 0 }

/-- R19, R50: the instrument's two moves. A byte joins RXQ at its end, but not once the stream has ended; the end of the stream
sets RXEND. Neither changes anything else. That a byte after the end is a move that changes nothing is the model's reading (log 4).
-/
def Obligations.InstrumentMoves : Prop :=
  ∀ s : State,
    (∀ b, nextMove s = .instrByte b →
      step s = .next { popMove s with rxq := if s.rxend then s.rxq else s.rxq ++ [b] })
    ∧ (nextMove s = .instrEnd → step s = .next { popMove s with rxend := true })

/-- R104, R209, R242: with no byte queued and the stream open, RX holds under every move but the instrument's and reset: the
exchange stays in progress. -/
def Obligations.SilentInstrumentHangs : Prop :=
  ∀ s t : State, s.busy = true → s.phase = .rx → s.rxq = [] → s.rxend = false →
    (∀ b, nextMove s ≠ .instrByte b) → nextMove s ≠ .instrEnd → nextMove s ≠ .reset →
    step s = .next t →
    t.busy = true ∧ t.phase = .rx ∧ t.rxq = [] ∧ t.rxend = false ∧ t.done = s.done ∧ t.pbuf = s.pbuf ∧ t.txs = s.txs

/-! ## Whole exchanges -/

/-- R116: an SREAD whose n + 1 response bytes are queued, run by engine moves, sends the request frame, takes exactly those
bytes, and succeeds exactly when they sum to 0xFF mod 256. The schedule, the command's store and then engine moves only, is the
agenda's (log 1). -/
def Obligations.ShortReadExchange : Prop :=
  ∀ (fmt : Nibble) (a n t : Byte) (p rest : List Byte) (s : State),
    s.busy = false → s.eosf = false → p.length = n.toNat → s.rxq = p ++ t :: rest →
    ∃ u, steps (n.toNat + 6) (s.plan (commandThenEngine (commandWord 1 fmt a n) (n.toNat + 5))) = .next u
      ∧ u.txs = s.txs ++ [0x81, a, n, chk8 (0x81 + a.toNat + n.toNat)]
      ∧ u.rxq = rest
      ∧ PbufHolds u.pbuf p ∧ (∀ k, n.toNat ≤ k → Memory.read u.pbuf k = Memory.read s.pbuf k)
      ∧ u.rxchk = t ∧ u.rxsum.toNat = (byteSum p + t.toNat) % 256
      ∧ u.busy = false ∧ u.done = true ∧ u.result = 0 ∧ u.eosf = false
      ∧ u.ok = decide ((byteSum p + t.toNat) % 256 = 0xFF)
      ∧ u.err = (if (byteSum p + t.toNat) % 256 = 0xFF then .none else .chksum)
      ∧ u.agenda = s.agenda

/-- R116: an SREAD that finds only j ≤ n bytes: where the stream has ended it completes with EOS after taking them; where it has
not, it is still busy after any number of engine moves. The schedule is the agenda's (log 1); the engine moves made after the
completion, or while holding, change nothing (log 4). -/
def Obligations.ShortReadCutShort : Prop :=
  ∀ (fmt : Nibble) (a n : Byte) (s : State) (k : Nat),
    s.busy = false → s.eosf = false → s.rxq.length ≤ n.toNat →
    ∃ u, steps (s.rxq.length + 6 + k)
          (s.plan (commandThenEngine (commandWord 1 fmt a n) (s.rxq.length + 5 + k))) = .next u
      ∧ u.txs = s.txs ++ [0x81, a, n, chk8 (0x81 + a.toNat + n.toNat)]
      ∧ u.rxq = [] ∧ PbufHolds u.pbuf s.rxq ∧ u.agenda = s.agenda
      ∧ (s.rxend = true → u.done = true ∧ u.ok = false ∧ u.err = .eos ∧ u.eosf = true ∧ u.busy = false)
      ∧ (s.rxend = false → u.busy = true ∧ u.done = false ∧ u.phase = .rx)

/-- R117: an SWRITE with its payload written, run by engine moves, sends the request frame; the next response byte decides by
equality with the frame's checksum byte; at the end of the stream it completes with EOS; with neither it is still busy after
any number of engine moves. The schedule is the agenda's (log 1); the engine moves made after the completion, or while holding,
change nothing (log 4). -/
def Obligations.ShortWriteExchange : Prop :=
  ∀ (fmt : Nibble) (a n : Byte) (p : List Byte) (s : State) (k : Nat),
    s.busy = false → s.eosf = false → p.length = n.toNat → PbufHolds s.pbuf p →
    ∃ u, steps (n.toNat + 6 + k) (s.plan (commandThenEngine (commandWord 2 fmt a n) (n.toNat + 5 + k))) = .next u
      ∧ u.txs = s.txs ++ (0x01 :: a :: n :: p ++ [chk8 (0x01 + a.toNat + n.toNat + byteSum p)])
      ∧ u.pbuf = s.pbuf ∧ u.agenda = s.agenda ∧ u.rxq = s.rxq.tail
      ∧ (∀ c rest, s.rxq = c :: rest →
          u.done = true ∧ u.busy = false ∧ u.rxchk = c ∧ u.rxsum = 0
          ∧ u.ok = decide (c = chk8 (0x01 + a.toNat + n.toNat + byteSum p))
          ∧ u.err = (if c = chk8 (0x01 + a.toNat + n.toNat + byteSum p) then .none else .chksum))
      ∧ (s.rxq = [] → s.rxend = true → u.done = true ∧ u.ok = false ∧ u.err = .eos ∧ u.eosf = true)
      ∧ (s.rxq = [] → s.rxend = false → u.busy = true ∧ u.done = false)

/-- R181, on one schedule of each exchange: where the whole response is queued before the command's store and has a good sum, and
the engine alone moves after the store, RDCH.f ends as SREAD of fmtlen(f) bytes followed by DECODE.f ends: the same TXS, PBUF,
CHKINFO, STATUS and RESULT. The schedule is the agenda's (log 1); other interleavings are not spoken of. -/
def Obligations.RdchIsSreadThenDecode : Prop :=
  ∀ (f : Format) (fmt : Nibble) (a len a' len' t : Byte) (p rest : List Byte) (s : State),
    s.busy = false → s.eosf = false → p.length = fmtlen f → s.rxq = p ++ t :: rest →
    (byteSum p + t.toNat) % 256 = 0xFF →
    ∃ u v,
      steps (fmtlen f + 6) (s.plan (commandThenEngine (commandWord 4 f.code a len) (fmtlen f + 5))) = .next u
      ∧ steps (fmtlen f + 7) (s.plan
          (commandThenEngine (commandWord 1 fmt a (BitVec.ofNat 8 (fmtlen f))) (fmtlen f + 5)
            ++ [.hostWrite 0x000 4 (commandWord 3 f.code a' len')])) = .next v
      ∧ u.result = BitVec.ofInt 32 (decodeValue f p)
      ∧ v.result = u.result ∧ v.txs = u.txs ∧ v.pbuf = u.pbuf ∧ v.rxq = u.rxq
      ∧ chkinfoWord v = chkinfoWord u ∧ statusWord v = statusWord u
      ∧ u.done = true ∧ u.ok = true ∧ u.err = .none

/-! ## The host window -/

/-- R12, R13, R15, R200: what a load of CMD, STATUS, RESULT or CHKINFO returns, bit by bit, with ERR's number in bits 7:4 of
STATUS (NONE 0, CHKSUM 1, EOS 2, ILLEGAL_OP 3, ILLEGAL_FMT 4); a load changes no state of the block. The value is recorded in the model's own field hostIn (log 8). -/
def Obligations.RegisterLoads : Prop :=
  ∀ s : State,
    (nextMove s = .hostRead 0x000 4 → step s = .next { popMove s with hostIn := s.hostIn ++ [s.cmd] })
    ∧ (nextMove s = .hostRead 0x008 4 → step s = .next { popMove s with hostIn := s.hostIn ++ [s.result] })
    ∧ (∀ (e : ErrCode) (n : Nat), (e, n) ∈ [(.none, 0), (.chksum, 1), (.eos, 2), (.illegalOp, 3), (.illegalFmt, 4)] →
        s.err = e → nextMove s = .hostRead 0x004 4 → ∃ w : Word,
        step s = .next { popMove s with hostIn := s.hostIn ++ [w] }
        ∧ w.toNat = s.busy.toNat + 2 * s.done.toNat + 4 * s.ok.toNat + 16 * n + 256 * s.eosf.toNat + 512 * s.ovr.toNat)
    ∧ (nextMove s = .hostRead 0x00C 4 → ∃ w : Word,
        step s = .next { popMove s with hostIn := s.hostIn ++ [w] }
        ∧ w.toNat = s.txchk.toNat + 256 * s.rxchk.toNat + 65536 * s.rxsum.toNat)

/-- R45: a supported load in the reserved range returns 0, and a supported store there is ignored. The value returned is recorded in
the model's own field hostIn (log 8). -/
def Obligations.ReservedRange : Prop :=
  ∀ (s : State) (off : Nat), 0x010 ≤ off → off < 0x100 → off % 4 = 0 →
    (nextMove s = .hostRead off 4 → step s = .next { popMove s with hostIn := s.hostIn ++ [0] })
    ∧ (∀ v, nextMove s = .hostWrite off 4 v → step s = .next (popMove s))

/-- R46: a STATUS store clears OVR where bit 9 of the value is 1, and changes no other bit, whether BUSY is 0 or 1. -/
def Obligations.StatusStore : Prop :=
  ∀ (s : State) (v : Word), nextMove s = .hostWrite 0x004 4 v →
    step s = .next { popMove s with ovr := if v.getLsbD 9 then false else s.ovr }

/-- R47: a store to RESULT or CHKINFO is ignored and sets no flag. -/
def Obligations.ReadOnlyStores : Prop :=
  ∀ (s : State) (v : Word), nextMove s = .hostWrite 0x008 4 v ∨ nextMove s = .hostWrite 0x00C 4 v →
    step s = .next (popMove s)

/-- R43, R44: a 4-byte PBUF load of written bytes returns the four bytes, lowest first in the low bits, and a 1-byte load its byte,
whether BUSY is 0 or 1; while BUSY is 0 a 4-byte store writes four bytes in one step and a 1-byte store one byte; every byte written
is marked written, and no other byte changes. That a loaded value goes to hostIn, a byte zero-extended, is the model's choice (logs
8, 17). -/
def Obligations.PbufAccess : Prop :=
  ∀ (s : State) (j : Nat), j < 64 →
    (∀ b0 b1 b2 b3, nextMove s = .hostRead (0x100 + 4 * j) 4 →
      Memory.read s.pbuf (4 * j) = some b0 → Memory.read s.pbuf (4 * j + 1) = some b1 →
      Memory.read s.pbuf (4 * j + 2) = some b2 → Memory.read s.pbuf (4 * j + 3) = some b3 →
      step s = .next { popMove s with hostIn := s.hostIn ++ [b3 ++ b2 ++ b1 ++ b0] })
    ∧ (∀ k b, k < 256 → nextMove s = .hostRead (0x100 + k) 1 → Memory.read s.pbuf k = some b →
      step s = .next { popMove s with hostIn := s.hostIn ++ [b.setWidth 32] })
    ∧ (∀ v, nextMove s = .hostWrite (0x100 + 4 * j) 4 v → s.busy = false →
      ∃ m : Memory, step s = .next { popMove s with pbuf := m }
        ∧ (∀ k, k < 4 → Memory.read m (4 * j + k) = some (v.extractLsb' (8 * k) 8))
        ∧ (∀ i, i < 4 * j ∨ 4 * j + 4 ≤ i → Memory.read m i = Memory.read s.pbuf i))
    ∧ (∀ k v, k < 256 → nextMove s = .hostWrite (0x100 + k) 1 v → s.busy = false →
      ∃ m : Memory, step s = .next { popMove s with pbuf := m }
        ∧ Memory.read m k = some (v.extractLsb' 0 8) ∧ (∀ i, i ≠ k → Memory.read m i = Memory.read s.pbuf i))

/-- R44, R17: a PBUF load that meets a never-written byte is fault UnwrittenPayload. -/
def Obligations.UnwrittenLoadFaults : Prop :=
  ∀ (s : State) (off size k : Nat), nextMove s = .hostRead (0x100 + off) size →
    (size = 1 ∧ off < 256 ∨ size = 4 ∧ off % 4 = 0 ∧ off < 256) →
    off ≤ k → k < off + size → Memory.read s.pbuf k = none → step s = .fault .unwrittenPayload

/-- R41: in the window, a load or store is refused exactly when it is not one of the four supported shapes. -/
def Obligations.UnsupportedAccessRefused : Prop :=
  ∀ (s : State) (off size : Nat), off < 0x200 →
    let good := (size = 4 ∧ (off = 0x000 ∨ off = 0x004 ∨ off = 0x008 ∨ off = 0x00C))
      ∨ (size = 4 ∧ off % 4 = 0 ∧ 0x010 ≤ off ∧ off < 0x100)
      ∨ (size = 1 ∧ 0x100 ≤ off) ∨ (size = 4 ∧ off % 4 = 0 ∧ 0x100 ≤ off)
    (nextMove s = .hostRead off size → ((∃ r, step s = .refused r) ↔ ¬ good))
    ∧ (∀ v, nextMove s = .hostWrite off size v → ((∃ r, step s = .refused r) ↔ ¬ good))

/-- R40: a host access at an address outside BASE to BASE + 0x1FF does not reach the block; at BASE + offset it is the access at
that offset. -/
def Obligations.WindowAddresses : Prop :=
  ∀ (s : State) (addr size : Nat) (v : Word),
    (addr < Config.base ∨ Config.base + 0x200 ≤ addr → busLoad addr size s = .next s ∧ busStore addr size v s = .next s)
    ∧ (∀ off, addr = Config.base + off → off < 0x200 →
        busLoad addr size s = hostLoad off size s ∧ busStore addr size v s = hostStore off size v s)

/-! ## Invariants and whole-machine rules -/

/-- R25 at reset. -/
def Obligations.ResetStatusInv : Prop := StatusInv State.reset

/-- R25: every step keeps the six invariants, from every state that has them. -/
def Obligations.StepKeepsStatusInv : Prop := ∀ s t : State, StatusInv s → step s = .next t → StatusInv t

/-- R12, R15, R16, R18, R20 at reset. -/
def Obligations.ResetBlockInv : Prop := BlockInv State.reset

/-- R12, R15, R16, R18, R20, R180: every step keeps the block's invariant, from every state that has it. -/
def Obligations.StepKeepsBlockInv : Prop := ∀ s t : State, BlockInv s → step s = .next t → BlockInv t

/-- R23: the values that reset gives, and the payload buffer with no byte written. -/
def Obligations.ResetValues : Prop :=
  State.reset.cmd = 0 ∧ statusWord State.reset = 0 ∧ State.reset.result = 0 ∧ chkinfoWord State.reset = 0
  ∧ (∀ k, Memory.read State.reset.pbuf k = none)
  ∧ State.reset.phase = .idle ∧ State.reset.txidx = 0 ∧ State.reset.rxidx = 0 ∧ State.reset.acc = 0

/-- R230 to R232, R23: a reset move, in any state, gives the block its reset values and leaves TXS, RXQ and RXEND alone. -/
def Obligations.ResetMove : Prop :=
  ∀ s : State, nextMove s = .reset → ∃ t, step s = .next t
    ∧ t.cmd = 0 ∧ statusWord t = 0 ∧ t.result = 0 ∧ chkinfoWord t = 0 ∧ (∀ k, Memory.read t.pbuf k = none)
    ∧ t.phase = .idle ∧ t.txidx = 0 ∧ t.rxidx = 0 ∧ t.acc = 0
    ∧ t.txs = s.txs ∧ t.rxq = s.rxq ∧ t.rxend = s.rxend

/-- R13, R22, R231: EOSF is set only by an EOS completion and cleared only by reset. -/
def Obligations.EosfSticky : Prop :=
  ∀ s t : State, step s = .next t →
    (s.eosf = true → t.eosf = false → nextMove s = .reset)
    ∧ (s.eosf = false → t.eosf = true → t.err = .eos ∧ t.done = true ∧ nextMove s = .engine)

/-- R22, R240, R46: OVR is set only by an ignored CMD or PBUF write while BUSY, and cleared only by a STATUS write with bit 9 or by
reset. -/
def Obligations.OvrRules : Prop :=
  ∀ s t : State, step s = .next t →
    (s.ovr = false → t.ovr = true → s.busy = true
      ∧ ∃ off size v, nextMove s = .hostWrite off size v ∧ (off = 0x000 ∨ 0x100 ≤ off ∧ off < 0x200))
    ∧ (s.ovr = true → t.ovr = false → nextMove s = .reset ∨ ∃ v : Word, nextMove s = .hostWrite 0x004 4 v ∧ v.getLsbD 9 = true)

/-- R114, R115: no byte is sent but the next byte of TXSEQ, by an engine move in TX; no byte is taken but the oldest of RXQ, by
an engine move in RX; only the instrument adds to RXQ, at its end. -/
def Obligations.TransportDiscipline : Prop :=
  ∀ s t : State, step s = .next t →
    (t.txs ≠ s.txs → nextMove s = .engine ∧ s.phase = .tx ∧ ∃ b, s.txseq[s.txidx]? = some b ∧ t.txs = s.txs ++ [b])
    ∧ (t.rxq ≠ s.rxq → (nextMove s = .engine ∧ s.phase = .rx ∧ t.rxq = s.rxq.tail)
        ∨ ∃ b, nextMove s = .instrByte b ∧ s.rxend = false ∧ t.rxq = s.rxq ++ [b])

/-- R240, R242: while BUSY, no host access changes anything but OVR and the host's own record, the model's field hostIn
(log 8). -/
def Obligations.BusyShieldsExchange : Prop :=
  ∀ (s t : State) (off size : Nat) (v : Word), s.busy = true →
    nextMove s = .hostRead off size ∨ nextMove s = .hostWrite off size v → step s = .next t →
    t = { popMove s with ovr := t.ovr, hostIn := t.hostIn }

/-- R16: no engine move writes PBUF[255], in a state with the block's invariant. -/
def Obligations.EngineLeavesTopByte : Prop :=
  ∀ s t : State, BlockInv s → nextMove s = .engine → step s = .next t →
    Memory.read t.pbuf 255 = Memory.read s.pbuf 255
end

