-- ==== Sys2Proof/Laws/Decode.lean ====
section
/-!
SUPPORT. The laws of the encodings: the fields of a command word, words and their bytes, checksums, and what a request frame
decodes to.
-/
namespace Sys2Proof

theorem leValue_lt (bs : List Byte) : leValue bs < 256 ^ bs.length := by
  induction bs with
  | nil => simp [leValue]
  | cons b bs ih =>
    have := b.isLt
    simp only [leValue, List.length_cons, Nat.pow_succ]
    omega

theorem wordByte_toNat (w : Word) (k : Nat) : (wordByte w k).toNat = w.toNat / 256 ^ k % 256 := by
  simp only [wordByte, BitVec.extractLsb'_toNat, Nat.shiftRight_eq_div_pow]
  rw [Nat.pow_mul]

/-- The host window's byte order loses nothing. -/
@[simp] theorem wordOfBytes_wordBytes (w : Word) : wordOfBytes (wordBytes w) = w := by
  apply BitVec.eq_of_toNat_eq
  have := w.isLt
  simp only [wordOfBytes, wordBytes, leValue, wordByte_toNat, BitVec.toNat_ofNat]
  omega

theorem commandWord_toNat (op fmt : Nibble) (addr len : Byte) :
    (commandWord op fmt addr len).toNat = op.toNat + 16 * fmt.toNat + 256 * addr.toNat + 65536 * len.toNat := by
  have h1 := op.isLt; have h2 := fmt.isLt; have h3 := addr.isLt; have h4 := len.isLt
  simp only [commandWord, BitVec.toNat_append, BitVec.toNat_ofNat]
  rw [← Nat.shiftLeft_add_eq_or_of_lt h1, ← Nat.shiftLeft_add_eq_or_of_lt h2, ← Nat.shiftLeft_add_eq_or_of_lt h3,
    ← Nat.shiftLeft_add_eq_or_of_lt h4]
  simp only [Nat.shiftLeft_eq]
  omega

theorem opOf_toNat (w : Word) : (opOf w).toNat = w.toNat % 16 := by
  simp [opOf, BitVec.extractLsb'_toNat]

theorem fmtOf_toNat (w : Word) : (fmtOf w).toNat = w.toNat / 16 % 16 := by
  simp [fmtOf, BitVec.extractLsb'_toNat, Nat.shiftRight_eq_div_pow]

theorem addrOf_toNat (w : Word) : (addrOf w).toNat = w.toNat / 256 % 256 := by
  simp [addrOf, BitVec.extractLsb'_toNat, Nat.shiftRight_eq_div_pow]

theorem lenOf_toNat (w : Word) : (lenOf w).toNat = w.toNat / 65536 % 256 := by
  simp [lenOf, BitVec.extractLsb'_toNat, Nat.shiftRight_eq_div_pow]

@[simp] theorem opOf_commandWord (op fmt : Nibble) (addr len : Byte) : opOf (commandWord op fmt addr len) = op := by
  apply BitVec.eq_of_toNat_eq
  have := op.isLt
  rw [opOf_toNat, commandWord_toNat]
  omega

@[simp] theorem fmtOf_commandWord (op fmt : Nibble) (addr len : Byte) : fmtOf (commandWord op fmt addr len) = fmt := by
  apply BitVec.eq_of_toNat_eq
  have := op.isLt; have := fmt.isLt
  rw [fmtOf_toNat, commandWord_toNat]
  omega

@[simp] theorem addrOf_commandWord (op fmt : Nibble) (addr len : Byte) : addrOf (commandWord op fmt addr len) = addr := by
  apply BitVec.eq_of_toNat_eq
  have := op.isLt; have := fmt.isLt; have := addr.isLt
  rw [addrOf_toNat, commandWord_toNat]
  omega

@[simp] theorem lenOf_commandWord (op fmt : Nibble) (addr len : Byte) : lenOf (commandWord op fmt addr len) = len := by
  apply BitVec.eq_of_toNat_eq
  have := op.isLt; have := fmt.isLt; have := addr.isLt; have := len.isLt
  rw [lenOf_toNat, commandWord_toNat]
  omega

/-- A command word is its four fields, but for the reserved bits 31:24. -/
theorem commandWord_fields (w : Word) : commandWord (opOf w) (fmtOf w) (addrOf w) (lenOf w) = w &&& 0x00FFFFFF := by
  apply BitVec.eq_of_toNat_eq
  have := w.isLt
  have h : (w &&& 0x00FFFFFF).toNat = w.toNat % 2 ^ 24 := by
    rw [BitVec.toNat_and]; exact Nat.and_two_pow_sub_one_eq_mod _ 24
  rw [commandWord_toNat, opOf_toNat, fmtOf_toNat, addrOf_toNat, lenOf_toNat, h]
  omega

@[simp] theorem Format.ofCode_code (f : Format) : Format.ofCode f.code = some f := by cases f <;> rfl

theorem Format.code_of_ofCode {c : Nibble} {f : Format} (h : Format.ofCode c = some f) : f.code = c := by
  revert f
  revert c
  decide

theorem Format.ofCode_eq_none (c : Nibble) : Format.ofCode c = none ↔ c.toNat = 0 ∨ 14 ≤ c.toNat := by
  revert c
  decide

@[simp] theorem decodeCommand_sread (fmt : Nibble) (addr len : Byte) :
    decodeCommand (commandWord opSread fmt addr len) = .ok (.sread fmt addr len) := by
  simp [decodeCommand]

@[simp] theorem decodeCommand_swrite (fmt : Nibble) (addr len : Byte) :
    decodeCommand (commandWord opSwrite fmt addr len) = .ok (.swrite fmt addr len) := by
  simp [decodeCommand, opSread, opSwrite]

@[simp] theorem decodeCommand_decode (f : Format) (addr len : Byte) :
    decodeCommand (commandWord opDecode f.code addr len) = .ok (Instr.decodeRow f addr len) := by
  simp [decodeCommand, opSread, opSwrite, opDecode]

@[simp] theorem decodeCommand_rdch (f : Format) (addr len : Byte) :
    decodeCommand (commandWord opRdch f.code addr len) = .ok (Instr.rdchRow f addr len) := by
  simp [decodeCommand, opSread, opSwrite, opDecode, opRdch]

@[simp] theorem decode_command_wordBytes (w : Word) : decode .command (wordBytes w) = decodeCommand w := by
  simp only [decode]
  rw [if_pos (by rfl), wordOfBytes_wordBytes]

/-- A command decodes to one of four shapes, by its OP. -/
theorem decodeCommand_ok {w : Word} {i : Instr} (h : decodeCommand w = .ok i) :
    (opOf w = opSread ∧ i = .sread (fmtOf w) (addrOf w) (lenOf w))
    ∨ (opOf w = opSwrite ∧ i = .swrite (fmtOf w) (addrOf w) (lenOf w))
    ∨ (∃ f, opOf w = opDecode ∧ fmtOf w = f.code ∧ i = Instr.decodeRow f (addrOf w) (lenOf w))
    ∨ (∃ f, opOf w = opRdch ∧ fmtOf w = f.code ∧ i = Instr.rdchRow f (addrOf w) (lenOf w)) := by
  unfold decodeCommand at h
  split at h
  · next h1 => exact .inl ⟨h1, (Except.ok.inj h).symm⟩
  split at h
  · next h1 => exact .inr (.inl ⟨h1, (Except.ok.inj h).symm⟩)
  split at h
  · next h1 =>
    split at h
    · next f hf => exact .inr (.inr (.inl ⟨f, h1, (Format.code_of_ofCode hf).symm, (Except.ok.inj h).symm⟩))
    · cases h
  split at h
  · next h1 =>
    split at h
    · next f hf => exact .inr (.inr (.inr ⟨f, h1, (Format.code_of_ofCode hf).symm, (Except.ok.inj h).symm⟩))
    · cases h
  · cases h

theorem chk8_toNat (s : Nat) : (chk8 s).toNat = 255 - s % 256 := by
  simp only [chk8, BitVec.toNat_ofNat]
  omega

@[simp] theorem byteSum_append (bs cs : List Byte) : byteSum (bs ++ cs) = byteSum bs + byteSum cs := by
  induction bs with
  | nil => simp [byteSum]
  | cons b bs ih => simp [byteSum, ih, Nat.add_assoc]

/-- The four bytes of a short-read request (R75). -/
theorem shortReadFrame_eq (a n : Byte) :
    shortReadFrame a n = [0x81, a, n, chk8 (0x81 + a.toNat + n.toNat)] := by
  simp [shortReadFrame, closeFrame, byteSum, shortReadCode, Nat.add_assoc]

/-- The n + 4 bytes of a short-write request (R77). -/
theorem shortWriteFrame_eq (a n : Byte) (p : List Byte) :
    shortWriteFrame a n p = 0x01 :: a :: n :: p ++ [chk8 (0x01 + a.toNat + n.toNat + byteSum p)] := by
  simp [shortWriteFrame, closeFrame, byteSum, shortWriteCode, Nat.add_assoc]

theorem closeFrame_getLastD (bs : List Byte) : (closeFrame bs).getLastD 0 = chk8 (byteSum bs) := by
  simp [closeFrame]

@[simp] theorem decodeRequest_shortReadFrame (a n : Byte) :
    decodeRequest (shortReadFrame a n) = .ok (.shortReadReq a n) := by
  rw [shortReadFrame_eq]
  simp [decodeRequest, shortReadFrame_eq, shortReadCode]

theorem decodeRequest_shortWriteFrame (a n : Byte) (p : List Byte) (h : p.length = n.toNat) :
    decodeRequest (shortWriteFrame a n p) = .ok (.shortWriteReq a n p) := by
  have ht : (p ++ [chk8 (0x01 + a.toNat + n.toNat + byteSum p)]).take n.toNat = p := by
    rw [← h]; simp
  rw [shortWriteFrame_eq]
  simp only [List.cons_append, decodeRequest]
  rw [if_neg (by decide), if_pos (show (1 : Byte) = shortWriteCode from rfl), if_pos (by simp [h]), ht,
    if_pos (by rw [shortWriteFrame_eq]; rfl)]

/-- A request frame decodes to one of the two request shapes, and is that shape's frame (R75, R77, R80). -/
theorem decodeRequest_ok {bs : List Byte} {i : Instr} (h : decodeRequest bs = .ok i) :
    (∃ a n, i = .shortReadReq a n ∧ bs = shortReadFrame a n)
    ∨ (∃ a n p, i = .shortWriteReq a n p ∧ p.length = n.toNat ∧ bs = shortWriteFrame a n p) := by
  unfold decodeRequest at h
  split at h
  · next c a n rest =>
    split at h
    · split at h
      · split at h
        · next hf => exact .inl ⟨a, n, (Except.ok.inj h).symm, hf⟩
        · cases h
      · cases h
    · split at h
      · split at h
        · next hl =>
          split at h
          · next hf =>
            exact .inr ⟨a, n, _, (Except.ok.inj h).symm, by simp [hl], hf⟩
          · cases h
        · cases h
      · cases h
  · cases h

end Sys2Proof
end

