-- ==== Sys2Proof/Laws/Memory.lean ====
section
/-!
SUPPORT. The laws of the payload buffer: read after write, the canonical form that every write keeps, and block reads.
-/
namespace Sys2Proof.Machine

@[simp] theorem Memory.read_nil (k : Nat) : Memory.read [] k = none := rfl

@[simp] theorem Memory.read_write_same (m : Memory) (k : Nat) (b : Byte) :
    Memory.read (Memory.write m k b) k = some b := by
  induction m with
  | nil => simp [Memory.write, Memory.read]
  | cons c m ih =>
    obtain ⟨j, c⟩ := c
    rw [Memory.write]
    split
    · simp [Memory.read]
    · split
      · simp [Memory.read]
      · next h => simp [Memory.read, Ne.symm h, ih]

theorem Memory.read_write_other (m : Memory) (k i : Nat) (b : Byte) (h : i ≠ k) :
    Memory.read (Memory.write m k b) i = Memory.read m i := by
  induction m with
  | nil => simp [Memory.write, Memory.read, Ne.symm h]
  | cons c m ih =>
    obtain ⟨j, c⟩ := c
    rw [Memory.write]
    split
    · simp [Memory.read, Ne.symm h]
    · split
      · next hj => subst hj; simp [Memory.read, Ne.symm h]
      · simp [Memory.read, ih]

theorem Memory.risesFrom_write (m : Memory) (k : Nat) (b : Byte) (lo : Nat) (hk : lo ≤ k)
    (h : Memory.risesFrom lo m = true) : Memory.risesFrom lo (Memory.write m k b) = true := by
  induction m generalizing lo with
  | nil => simp [Memory.write, Memory.risesFrom, hk]
  | cons c m ih =>
    obtain ⟨j, c⟩ := c
    simp only [Memory.risesFrom, Bool.and_eq_true, decide_eq_true_eq] at h
    rw [Memory.write]
    split
    · simp only [Memory.risesFrom, Bool.and_eq_true, decide_eq_true_eq]
      exact ⟨hk, by omega, h.2⟩
    · split
      · next hj => subst hj; simpa [Memory.risesFrom, hk] using h.2
      · simp only [Memory.risesFrom, Bool.and_eq_true, decide_eq_true_eq]
        exact ⟨h.1, ih (j + 1) (by omega) h.2⟩

theorem Memory.all_write (m : Memory) (k : Nat) (b : Byte) (P : Host.Cell → Bool) (hk : P (k, b) = true)
    (h : m.all P = true) : (Memory.write m k b).all P = true := by
  induction m with
  | nil => simp [Memory.write, hk]
  | cons c m ih =>
    obtain ⟨j, c⟩ := c
    simp only [List.all_cons, Bool.and_eq_true] at h
    rw [Memory.write]
    split
    · simp [hk, h.1, h.2]
    · split
      · simp [hk, h.2]
      · simp [h.1, ih h.2]

/-- A write below PBUF_BYTES keeps the canonical form. -/
theorem Memory.wf_write (m : Memory) (k : Nat) (b : Byte) (hk : k < 256) (h : Memory.wf m = true) :
    Memory.wf (Memory.write m k b) = true := by
  simp only [Memory.wf, Bool.and_eq_true] at h ⊢
  exact ⟨Memory.risesFrom_write m k b 0 (Nat.zero_le k) h.1,
    Memory.all_write m k b _ (decide_eq_true hk) h.2⟩

/-- A block write inside PBUF keeps the canonical form. -/
theorem Memory.wf_writeBytes (bs : List Byte) (m : Memory) (k : Nat) (hk : k + bs.length ≤ 256)
    (h : Memory.wf m = true) : Memory.wf (Memory.writeBytes m k bs) = true := by
  induction bs generalizing m k with
  | nil => exact h
  | cons b bs ih =>
    simp only [List.length_cons] at hk
    exact ih _ _ (by omega) (Memory.wf_write m k b (by omega) h)

theorem Memory.read_writeBytes_other (bs : List Byte) (m : Memory) (k i : Nat) (h : i < k ∨ k + bs.length ≤ i) :
    Memory.read (Memory.writeBytes m k bs) i = Memory.read m i := by
  induction bs generalizing m k with
  | nil => rfl
  | cons b bs ih =>
    simp only [List.length_cons] at h
    rw [Memory.writeBytes, ih _ _ (by omega), Memory.read_write_other _ _ _ _ (by omega)]

theorem Memory.read_writeBytes_same (bs : List Byte) (m : Memory) (k i : Nat) (h : i < bs.length) :
    Memory.read (Memory.writeBytes m k bs) (k + i) = some bs[i] := by
  induction bs generalizing m k i with
  | nil => simp at h
  | cons b bs ih =>
    cases i with
    | zero => rw [Memory.writeBytes, Memory.read_writeBytes_other _ _ _ _ (by omega)]; simp
    | succ i =>
      have := ih (Memory.write m k b) (k + 1) i (by simpa using h)
      rw [Memory.writeBytes]
      simpa [Nat.add_comm, Nat.add_left_comm] using this

/-- A block read answers exactly the bytes that stand there. -/
theorem Memory.readBytes_eq_some (m : Memory) (k n : Nat) (p : List Byte) :
    Memory.readBytes m k n = some p ↔ p.length = n ∧ ∀ i (h : i < p.length), Memory.read m (k + i) = some p[i] := by
  induction n generalizing k p with
  | zero =>
    constructor
    · intro h
      simp only [Memory.readBytes, Option.some.injEq] at h
      subst h
      simp
    · rintro ⟨h, -⟩
      simp [Memory.readBytes, List.length_eq_zero_iff.mp h]
  | succ n ih =>
    rw [Memory.readBytes]
    cases p with
    | nil => simp; split <;> simp
    | cons b bs =>
      constructor
      · intro h
        split at h
        · next b' bs' hb hbs =>
          simp only [Option.some.injEq, List.cons.injEq] at h
          obtain ⟨rfl, rfl⟩ := h
          obtain ⟨hl, hr⟩ := (ih _ _).mp hbs
          refine ⟨by simp [hl], fun i hi => ?_⟩
          cases i with
          | zero => simpa using hb
          | succ i => simpa [Nat.add_comm, Nat.add_left_comm] using hr i (by simpa using hi)
        · simp at h
      · rintro ⟨hl, hr⟩
        have hb := hr 0 (by simp)
        have hbs := (ih (k + 1) bs).mpr ⟨by simpa using hl, fun i hi => by
          have := hr (i + 1) (by simpa using hi)
          rw [List.getElem_cons_succ] at this
          rw [← this]; congr 1; omega⟩
        simp only [Nat.add_zero, List.getElem_cons_zero] at hb
        rw [hb, hbs]

theorem Memory.readBytes_of_holds (m : Memory) (p : List Byte) (n : Nat) (hn : p.length = n) (h : PbufHolds m p) :
    Memory.readBytes m 0 n = some p :=
  (Memory.readBytes_eq_some m 0 n p).mpr ⟨hn, fun i hi => by simpa using h i hi⟩

theorem Memory.holds_of_readBytes (m : Memory) (p : List Byte) (n : Nat) (h : Memory.readBytes m 0 n = some p) :
    p.length = n ∧ PbufHolds m p := by
  obtain ⟨hl, hr⟩ := (Memory.readBytes_eq_some m 0 n p).mp h
  exact ⟨hl, fun i hi => by simpa using hr i hi⟩

/-- A block read that meets an unwritten byte answers none. -/
theorem Memory.readBytes_eq_none (m : Memory) (k n i : Nat) (hi : k ≤ i) (hn : i < k + n)
    (h : Memory.read m i = none) : Memory.readBytes m k n = none := by
  cases hr : Memory.readBytes m k n with
  | none => rfl
  | some p =>
    obtain ⟨hl, hp⟩ := (Memory.readBytes_eq_some m k n p).mp hr
    have := hp (i - k) (by omega)
    rw [show k + (i - k) = i by omega, h] at this
    simp at this

/-- A block read depends only on the bytes it covers. -/
theorem Memory.readBytes_congr (m m' : Memory) (k n : Nat) (h : ∀ i, k ≤ i → i < k + n → Memory.read m i = Memory.read m' i) :
    Memory.readBytes m k n = Memory.readBytes m' k n := by
  induction n generalizing k with
  | zero => rfl
  | succ n ih =>
    rw [Memory.readBytes, Memory.readBytes, h k (by omega) (by omega), ih (k + 1) fun i h1 h2 => h i (by omega) (by omega)]

/-- Reset's payload buffer is in canonical form. -/
theorem Memory.wf_reset : Memory.wf State.reset.pbuf = true := rfl

/-- A byte written after a held payload extends it. -/
theorem PbufHolds.snoc {m : Memory} {p : List Byte} {b : Byte} (h : PbufHolds m p) :
    PbufHolds (Memory.write m p.length b) (p ++ [b]) := by
  intro k hk
  by_cases hkp : k = p.length
  · subst hkp; simp
  · have hlt : k < p.length := by simp at hk; omega
    rw [Memory.read_write_other _ _ _ _ hkp, h k hlt, List.getElem_append_left hlt]

end Sys2Proof.Machine
end

