-- ==== Sys2Proof/Laws/State.lean ====
section
/-!
SUPPORT. One lemma per field per update of the state: each updating operation, read back field by field, so that no later proof
unfolds a record update.
-/
namespace Sys2Proof.Machine

section acceptCommandFields
variable (w : Word) (s : State)

@[simp] theorem acceptCommand_cmd : (acceptCommand w s).cmd = (w.extractLsb' 0 24).setWidth 32 := rfl
@[simp] theorem acceptCommand_busy : (acceptCommand w s).busy = s.busy := rfl
@[simp] theorem acceptCommand_done : (acceptCommand w s).done = false := rfl
@[simp] theorem acceptCommand_ok : (acceptCommand w s).ok = false := rfl
@[simp] theorem acceptCommand_err : (acceptCommand w s).err = .none := rfl
@[simp] theorem acceptCommand_eosf : (acceptCommand w s).eosf = s.eosf := rfl
@[simp] theorem acceptCommand_ovr : (acceptCommand w s).ovr = s.ovr := rfl
@[simp] theorem acceptCommand_result : (acceptCommand w s).result = 0 := rfl
@[simp] theorem acceptCommand_txchk : (acceptCommand w s).txchk = s.txchk := rfl
@[simp] theorem acceptCommand_rxchk : (acceptCommand w s).rxchk = s.rxchk := rfl
@[simp] theorem acceptCommand_rxsum : (acceptCommand w s).rxsum = s.rxsum := rfl
@[simp] theorem acceptCommand_pbuf : (acceptCommand w s).pbuf = s.pbuf := rfl
@[simp] theorem acceptCommand_phase : (acceptCommand w s).phase = s.phase := rfl
@[simp] theorem acceptCommand_xop : (acceptCommand w s).xop = s.xop := rfl
@[simp] theorem acceptCommand_xfmt : (acceptCommand w s).xfmt = s.xfmt := rfl
@[simp] theorem acceptCommand_xlen : (acceptCommand w s).xlen = s.xlen := rfl
@[simp] theorem acceptCommand_txseq : (acceptCommand w s).txseq = s.txseq := rfl
@[simp] theorem acceptCommand_txidx : (acceptCommand w s).txidx = s.txidx := rfl
@[simp] theorem acceptCommand_rxidx : (acceptCommand w s).rxidx = s.rxidx := rfl
@[simp] theorem acceptCommand_acc : (acceptCommand w s).acc = s.acc := rfl
@[simp] theorem acceptCommand_txs : (acceptCommand w s).txs = s.txs := rfl
@[simp] theorem acceptCommand_rxq : (acceptCommand w s).rxq = s.rxq := rfl
@[simp] theorem acceptCommand_rxend : (acceptCommand w s).rxend = s.rxend := rfl
@[simp] theorem acceptCommand_agenda : (acceptCommand w s).agenda = s.agenda := rfl
@[simp] theorem acceptCommand_tick : (acceptCommand w s).tick = s.tick := rfl
@[simp] theorem acceptCommand_hostIn : (acceptCommand w s).hostIn = s.hostIn := rfl

end acceptCommandFields

section overrunFields
variable (s : State)

@[simp] theorem overrun_cmd : (overrun s).cmd = s.cmd := rfl
@[simp] theorem overrun_busy : (overrun s).busy = s.busy := rfl
@[simp] theorem overrun_done : (overrun s).done = s.done := rfl
@[simp] theorem overrun_ok : (overrun s).ok = s.ok := rfl
@[simp] theorem overrun_err : (overrun s).err = s.err := rfl
@[simp] theorem overrun_eosf : (overrun s).eosf = s.eosf := rfl
@[simp] theorem overrun_ovr : (overrun s).ovr = true := rfl
@[simp] theorem overrun_result : (overrun s).result = s.result := rfl
@[simp] theorem overrun_txchk : (overrun s).txchk = s.txchk := rfl
@[simp] theorem overrun_rxchk : (overrun s).rxchk = s.rxchk := rfl
@[simp] theorem overrun_rxsum : (overrun s).rxsum = s.rxsum := rfl
@[simp] theorem overrun_pbuf : (overrun s).pbuf = s.pbuf := rfl
@[simp] theorem overrun_phase : (overrun s).phase = s.phase := rfl
@[simp] theorem overrun_xop : (overrun s).xop = s.xop := rfl
@[simp] theorem overrun_xfmt : (overrun s).xfmt = s.xfmt := rfl
@[simp] theorem overrun_xlen : (overrun s).xlen = s.xlen := rfl
@[simp] theorem overrun_txseq : (overrun s).txseq = s.txseq := rfl
@[simp] theorem overrun_txidx : (overrun s).txidx = s.txidx := rfl
@[simp] theorem overrun_rxidx : (overrun s).rxidx = s.rxidx := rfl
@[simp] theorem overrun_acc : (overrun s).acc = s.acc := rfl
@[simp] theorem overrun_txs : (overrun s).txs = s.txs := rfl
@[simp] theorem overrun_rxq : (overrun s).rxq = s.rxq := rfl
@[simp] theorem overrun_rxend : (overrun s).rxend = s.rxend := rfl
@[simp] theorem overrun_agenda : (overrun s).agenda = s.agenda := rfl
@[simp] theorem overrun_tick : (overrun s).tick = s.tick := rfl
@[simp] theorem overrun_hostIn : (overrun s).hostIn = s.hostIn := rfl

end overrunFields

section putFields
variable (b : Byte) (s : State)

@[simp] theorem put_cmd : (put b s).cmd = s.cmd := rfl
@[simp] theorem put_busy : (put b s).busy = s.busy := rfl
@[simp] theorem put_done : (put b s).done = s.done := rfl
@[simp] theorem put_ok : (put b s).ok = s.ok := rfl
@[simp] theorem put_err : (put b s).err = s.err := rfl
@[simp] theorem put_eosf : (put b s).eosf = s.eosf := rfl
@[simp] theorem put_ovr : (put b s).ovr = s.ovr := rfl
@[simp] theorem put_result : (put b s).result = s.result := rfl
@[simp] theorem put_txchk : (put b s).txchk = s.txchk := rfl
@[simp] theorem put_rxchk : (put b s).rxchk = s.rxchk := rfl
@[simp] theorem put_rxsum : (put b s).rxsum = s.rxsum := rfl
@[simp] theorem put_pbuf : (put b s).pbuf = s.pbuf := rfl
@[simp] theorem put_phase : (put b s).phase = s.phase := rfl
@[simp] theorem put_xop : (put b s).xop = s.xop := rfl
@[simp] theorem put_xfmt : (put b s).xfmt = s.xfmt := rfl
@[simp] theorem put_xlen : (put b s).xlen = s.xlen := rfl
@[simp] theorem put_txseq : (put b s).txseq = s.txseq := rfl
@[simp] theorem put_txidx : (put b s).txidx = s.txidx := rfl
@[simp] theorem put_rxidx : (put b s).rxidx = s.rxidx := rfl
@[simp] theorem put_acc : (put b s).acc = s.acc := rfl
@[simp] theorem put_txs : (put b s).txs = s.txs ++ [b] := rfl
@[simp] theorem put_rxq : (put b s).rxq = s.rxq := rfl
@[simp] theorem put_rxend : (put b s).rxend = s.rxend := rfl
@[simp] theorem put_agenda : (put b s).agenda = s.agenda := rfl
@[simp] theorem put_tick : (put b s).tick = s.tick := rfl
@[simp] theorem put_hostIn : (put b s).hostIn = s.hostIn := rfl

end putFields

section completeFields
variable (e : ErrCode) (v : Int) (s : State)

@[simp] theorem complete_cmd : (complete e v s).cmd = s.cmd := rfl
@[simp] theorem complete_busy : (complete e v s).busy = false := rfl
@[simp] theorem complete_done : (complete e v s).done = true := rfl
@[simp] theorem complete_ok : (complete e v s).ok = decide (e = .none) := rfl
@[simp] theorem complete_err : (complete e v s).err = e := rfl
@[simp] theorem complete_eosf : (complete e v s).eosf = (s.eosf || decide (e = .eos)) := rfl
@[simp] theorem complete_ovr : (complete e v s).ovr = s.ovr := rfl
@[simp] theorem complete_result : (complete e v s).result = if e = .none then BitVec.ofInt 32 v else 0 := rfl
@[simp] theorem complete_txchk : (complete e v s).txchk = s.txchk := rfl
@[simp] theorem complete_rxchk : (complete e v s).rxchk = s.rxchk := rfl
@[simp] theorem complete_rxsum : (complete e v s).rxsum = s.rxsum := rfl
@[simp] theorem complete_pbuf : (complete e v s).pbuf = s.pbuf := rfl
@[simp] theorem complete_phase : (complete e v s).phase = .idle := rfl
@[simp] theorem complete_xop : (complete e v s).xop = s.xop := rfl
@[simp] theorem complete_xfmt : (complete e v s).xfmt = s.xfmt := rfl
@[simp] theorem complete_xlen : (complete e v s).xlen = s.xlen := rfl
@[simp] theorem complete_txseq : (complete e v s).txseq = s.txseq := rfl
@[simp] theorem complete_txidx : (complete e v s).txidx = 0 := rfl
@[simp] theorem complete_rxidx : (complete e v s).rxidx = 0 := rfl
@[simp] theorem complete_acc : (complete e v s).acc = 0 := rfl
@[simp] theorem complete_txs : (complete e v s).txs = s.txs := rfl
@[simp] theorem complete_rxq : (complete e v s).rxq = s.rxq := rfl
@[simp] theorem complete_rxend : (complete e v s).rxend = s.rxend := rfl
@[simp] theorem complete_agenda : (complete e v s).agenda = s.agenda := rfl
@[simp] theorem complete_tick : (complete e v s).tick = s.tick := rfl
@[simp] theorem complete_hostIn : (complete e v s).hostIn = s.hostIn := rfl

end completeFields

section startExchangeFields
variable (x : ExchangeOp) (n : Byte) (f : Nibble) (frame : List Byte) (s : State)

@[simp] theorem startExchange_cmd : (startExchange x n f frame s).cmd = s.cmd := rfl
@[simp] theorem startExchange_busy : (startExchange x n f frame s).busy = true := rfl
@[simp] theorem startExchange_done : (startExchange x n f frame s).done = s.done := rfl
@[simp] theorem startExchange_ok : (startExchange x n f frame s).ok = s.ok := rfl
@[simp] theorem startExchange_err : (startExchange x n f frame s).err = s.err := rfl
@[simp] theorem startExchange_eosf : (startExchange x n f frame s).eosf = s.eosf := rfl
@[simp] theorem startExchange_ovr : (startExchange x n f frame s).ovr = s.ovr := rfl
@[simp] theorem startExchange_result : (startExchange x n f frame s).result = s.result := rfl
@[simp] theorem startExchange_txchk : (startExchange x n f frame s).txchk = frame.getLastD 0 := rfl
@[simp] theorem startExchange_rxchk : (startExchange x n f frame s).rxchk = 0 := rfl
@[simp] theorem startExchange_rxsum : (startExchange x n f frame s).rxsum = 0 := rfl
@[simp] theorem startExchange_pbuf : (startExchange x n f frame s).pbuf = s.pbuf := rfl
@[simp] theorem startExchange_phase : (startExchange x n f frame s).phase = .tx := rfl
@[simp] theorem startExchange_xop : (startExchange x n f frame s).xop = x := rfl
@[simp] theorem startExchange_xfmt : (startExchange x n f frame s).xfmt = f := rfl
@[simp] theorem startExchange_xlen : (startExchange x n f frame s).xlen = n := rfl
@[simp] theorem startExchange_txseq : (startExchange x n f frame s).txseq = frame := rfl
@[simp] theorem startExchange_txidx : (startExchange x n f frame s).txidx = 0 := rfl
@[simp] theorem startExchange_rxidx : (startExchange x n f frame s).rxidx = 0 := rfl
@[simp] theorem startExchange_acc : (startExchange x n f frame s).acc = 0 := rfl
@[simp] theorem startExchange_txs : (startExchange x n f frame s).txs = s.txs := rfl
@[simp] theorem startExchange_rxq : (startExchange x n f frame s).rxq = s.rxq := rfl
@[simp] theorem startExchange_rxend : (startExchange x n f frame s).rxend = s.rxend := rfl
@[simp] theorem startExchange_agenda : (startExchange x n f frame s).agenda = s.agenda := rfl
@[simp] theorem startExchange_tick : (startExchange x n f frame s).tick = s.tick := rfl
@[simp] theorem startExchange_hostIn : (startExchange x n f frame s).hostIn = s.hostIn := rfl

end startExchangeFields

section payloadStepFields
variable (b : Byte) (s : State)

@[simp] theorem payloadStep_cmd : (payloadStep b s).cmd = s.cmd := rfl
@[simp] theorem payloadStep_busy : (payloadStep b s).busy = s.busy := rfl
@[simp] theorem payloadStep_done : (payloadStep b s).done = s.done := rfl
@[simp] theorem payloadStep_ok : (payloadStep b s).ok = s.ok := rfl
@[simp] theorem payloadStep_err : (payloadStep b s).err = s.err := rfl
@[simp] theorem payloadStep_eosf : (payloadStep b s).eosf = s.eosf := rfl
@[simp] theorem payloadStep_ovr : (payloadStep b s).ovr = s.ovr := rfl
@[simp] theorem payloadStep_result : (payloadStep b s).result = s.result := rfl
@[simp] theorem payloadStep_txchk : (payloadStep b s).txchk = s.txchk := rfl
@[simp] theorem payloadStep_rxchk : (payloadStep b s).rxchk = s.rxchk := rfl
@[simp] theorem payloadStep_rxsum : (payloadStep b s).rxsum = s.rxsum := rfl
@[simp] theorem payloadStep_pbuf : (payloadStep b s).pbuf = Memory.write s.pbuf s.rxidx b := rfl
@[simp] theorem payloadStep_phase : (payloadStep b s).phase = s.phase := rfl
@[simp] theorem payloadStep_xop : (payloadStep b s).xop = s.xop := rfl
@[simp] theorem payloadStep_xfmt : (payloadStep b s).xfmt = s.xfmt := rfl
@[simp] theorem payloadStep_xlen : (payloadStep b s).xlen = s.xlen := rfl
@[simp] theorem payloadStep_txseq : (payloadStep b s).txseq = s.txseq := rfl
@[simp] theorem payloadStep_txidx : (payloadStep b s).txidx = s.txidx := rfl
@[simp] theorem payloadStep_rxidx : (payloadStep b s).rxidx = s.rxidx + 1 := rfl
@[simp] theorem payloadStep_acc : (payloadStep b s).acc = s.acc + b := rfl
@[simp] theorem payloadStep_txs : (payloadStep b s).txs = s.txs := rfl
@[simp] theorem payloadStep_rxq : (payloadStep b s).rxq = s.rxq := rfl
@[simp] theorem payloadStep_rxend : (payloadStep b s).rxend = s.rxend := rfl
@[simp] theorem payloadStep_agenda : (payloadStep b s).agenda = s.agenda := rfl
@[simp] theorem payloadStep_tick : (payloadStep b s).tick = s.tick := rfl
@[simp] theorem payloadStep_hostIn : (payloadStep b s).hostIn = s.hostIn := rfl

end payloadStepFields

section resetBlockFields
variable (s : State)

@[simp] theorem resetBlock_cmd : (resetBlock s).cmd = State.reset.cmd := rfl
@[simp] theorem resetBlock_busy : (resetBlock s).busy = State.reset.busy := rfl
@[simp] theorem resetBlock_done : (resetBlock s).done = State.reset.done := rfl
@[simp] theorem resetBlock_ok : (resetBlock s).ok = State.reset.ok := rfl
@[simp] theorem resetBlock_err : (resetBlock s).err = State.reset.err := rfl
@[simp] theorem resetBlock_eosf : (resetBlock s).eosf = State.reset.eosf := rfl
@[simp] theorem resetBlock_ovr : (resetBlock s).ovr = State.reset.ovr := rfl
@[simp] theorem resetBlock_result : (resetBlock s).result = State.reset.result := rfl
@[simp] theorem resetBlock_txchk : (resetBlock s).txchk = State.reset.txchk := rfl
@[simp] theorem resetBlock_rxchk : (resetBlock s).rxchk = State.reset.rxchk := rfl
@[simp] theorem resetBlock_rxsum : (resetBlock s).rxsum = State.reset.rxsum := rfl
@[simp] theorem resetBlock_pbuf : (resetBlock s).pbuf = State.reset.pbuf := rfl
@[simp] theorem resetBlock_phase : (resetBlock s).phase = State.reset.phase := rfl
@[simp] theorem resetBlock_xop : (resetBlock s).xop = State.reset.xop := rfl
@[simp] theorem resetBlock_xfmt : (resetBlock s).xfmt = State.reset.xfmt := rfl
@[simp] theorem resetBlock_xlen : (resetBlock s).xlen = State.reset.xlen := rfl
@[simp] theorem resetBlock_txseq : (resetBlock s).txseq = State.reset.txseq := rfl
@[simp] theorem resetBlock_txidx : (resetBlock s).txidx = State.reset.txidx := rfl
@[simp] theorem resetBlock_rxidx : (resetBlock s).rxidx = State.reset.rxidx := rfl
@[simp] theorem resetBlock_acc : (resetBlock s).acc = State.reset.acc := rfl
@[simp] theorem resetBlock_txs : (resetBlock s).txs = s.txs := rfl
@[simp] theorem resetBlock_rxq : (resetBlock s).rxq = s.rxq := rfl
@[simp] theorem resetBlock_rxend : (resetBlock s).rxend = s.rxend := rfl
@[simp] theorem resetBlock_agenda : (resetBlock s).agenda = s.agenda := rfl
@[simp] theorem resetBlock_tick : (resetBlock s).tick = s.tick := rfl
@[simp] theorem resetBlock_hostIn : (resetBlock s).hostIn = s.hostIn := rfl

end resetBlockFields

section instrumentEndFields
variable (s : State)

@[simp] theorem instrumentEnd_cmd : (instrumentEnd s).cmd = s.cmd := rfl
@[simp] theorem instrumentEnd_busy : (instrumentEnd s).busy = s.busy := rfl
@[simp] theorem instrumentEnd_done : (instrumentEnd s).done = s.done := rfl
@[simp] theorem instrumentEnd_ok : (instrumentEnd s).ok = s.ok := rfl
@[simp] theorem instrumentEnd_err : (instrumentEnd s).err = s.err := rfl
@[simp] theorem instrumentEnd_eosf : (instrumentEnd s).eosf = s.eosf := rfl
@[simp] theorem instrumentEnd_ovr : (instrumentEnd s).ovr = s.ovr := rfl
@[simp] theorem instrumentEnd_result : (instrumentEnd s).result = s.result := rfl
@[simp] theorem instrumentEnd_txchk : (instrumentEnd s).txchk = s.txchk := rfl
@[simp] theorem instrumentEnd_rxchk : (instrumentEnd s).rxchk = s.rxchk := rfl
@[simp] theorem instrumentEnd_rxsum : (instrumentEnd s).rxsum = s.rxsum := rfl
@[simp] theorem instrumentEnd_pbuf : (instrumentEnd s).pbuf = s.pbuf := rfl
@[simp] theorem instrumentEnd_phase : (instrumentEnd s).phase = s.phase := rfl
@[simp] theorem instrumentEnd_xop : (instrumentEnd s).xop = s.xop := rfl
@[simp] theorem instrumentEnd_xfmt : (instrumentEnd s).xfmt = s.xfmt := rfl
@[simp] theorem instrumentEnd_xlen : (instrumentEnd s).xlen = s.xlen := rfl
@[simp] theorem instrumentEnd_txseq : (instrumentEnd s).txseq = s.txseq := rfl
@[simp] theorem instrumentEnd_txidx : (instrumentEnd s).txidx = s.txidx := rfl
@[simp] theorem instrumentEnd_rxidx : (instrumentEnd s).rxidx = s.rxidx := rfl
@[simp] theorem instrumentEnd_acc : (instrumentEnd s).acc = s.acc := rfl
@[simp] theorem instrumentEnd_txs : (instrumentEnd s).txs = s.txs := rfl
@[simp] theorem instrumentEnd_rxq : (instrumentEnd s).rxq = s.rxq := rfl
@[simp] theorem instrumentEnd_rxend : (instrumentEnd s).rxend = true := rfl
@[simp] theorem instrumentEnd_agenda : (instrumentEnd s).agenda = s.agenda := rfl
@[simp] theorem instrumentEnd_tick : (instrumentEnd s).tick = s.tick := rfl
@[simp] theorem instrumentEnd_hostIn : (instrumentEnd s).hostIn = s.hostIn := rfl

end instrumentEndFields

section planFields
variable (s : State) (ms : List Move)

@[simp] theorem plan_cmd : (s.plan ms).cmd = s.cmd := rfl
@[simp] theorem plan_busy : (s.plan ms).busy = s.busy := rfl
@[simp] theorem plan_done : (s.plan ms).done = s.done := rfl
@[simp] theorem plan_ok : (s.plan ms).ok = s.ok := rfl
@[simp] theorem plan_err : (s.plan ms).err = s.err := rfl
@[simp] theorem plan_eosf : (s.plan ms).eosf = s.eosf := rfl
@[simp] theorem plan_ovr : (s.plan ms).ovr = s.ovr := rfl
@[simp] theorem plan_result : (s.plan ms).result = s.result := rfl
@[simp] theorem plan_txchk : (s.plan ms).txchk = s.txchk := rfl
@[simp] theorem plan_rxchk : (s.plan ms).rxchk = s.rxchk := rfl
@[simp] theorem plan_rxsum : (s.plan ms).rxsum = s.rxsum := rfl
@[simp] theorem plan_pbuf : (s.plan ms).pbuf = s.pbuf := rfl
@[simp] theorem plan_phase : (s.plan ms).phase = s.phase := rfl
@[simp] theorem plan_xop : (s.plan ms).xop = s.xop := rfl
@[simp] theorem plan_xfmt : (s.plan ms).xfmt = s.xfmt := rfl
@[simp] theorem plan_xlen : (s.plan ms).xlen = s.xlen := rfl
@[simp] theorem plan_txseq : (s.plan ms).txseq = s.txseq := rfl
@[simp] theorem plan_txidx : (s.plan ms).txidx = s.txidx := rfl
@[simp] theorem plan_rxidx : (s.plan ms).rxidx = s.rxidx := rfl
@[simp] theorem plan_acc : (s.plan ms).acc = s.acc := rfl
@[simp] theorem plan_txs : (s.plan ms).txs = s.txs := rfl
@[simp] theorem plan_rxq : (s.plan ms).rxq = s.rxq := rfl
@[simp] theorem plan_rxend : (s.plan ms).rxend = s.rxend := rfl
@[simp] theorem plan_agenda : (s.plan ms).agenda = ms ++ s.agenda := rfl
@[simp] theorem plan_tick : (s.plan ms).tick = s.tick := rfl
@[simp] theorem plan_hostIn : (s.plan ms).hostIn = s.hostIn := rfl

end planFields

section popMoveFields
variable (s : State)

@[simp] theorem popMove_cmd : (popMove s).cmd = s.cmd := by unfold popMove; split <;> rfl
@[simp] theorem popMove_busy : (popMove s).busy = s.busy := by unfold popMove; split <;> rfl
@[simp] theorem popMove_done : (popMove s).done = s.done := by unfold popMove; split <;> rfl
@[simp] theorem popMove_ok : (popMove s).ok = s.ok := by unfold popMove; split <;> rfl
@[simp] theorem popMove_err : (popMove s).err = s.err := by unfold popMove; split <;> rfl
@[simp] theorem popMove_eosf : (popMove s).eosf = s.eosf := by unfold popMove; split <;> rfl
@[simp] theorem popMove_ovr : (popMove s).ovr = s.ovr := by unfold popMove; split <;> rfl
@[simp] theorem popMove_result : (popMove s).result = s.result := by unfold popMove; split <;> rfl
@[simp] theorem popMove_txchk : (popMove s).txchk = s.txchk := by unfold popMove; split <;> rfl
@[simp] theorem popMove_rxchk : (popMove s).rxchk = s.rxchk := by unfold popMove; split <;> rfl
@[simp] theorem popMove_rxsum : (popMove s).rxsum = s.rxsum := by unfold popMove; split <;> rfl
@[simp] theorem popMove_pbuf : (popMove s).pbuf = s.pbuf := by unfold popMove; split <;> rfl
@[simp] theorem popMove_phase : (popMove s).phase = s.phase := by unfold popMove; split <;> rfl
@[simp] theorem popMove_xop : (popMove s).xop = s.xop := by unfold popMove; split <;> rfl
@[simp] theorem popMove_xfmt : (popMove s).xfmt = s.xfmt := by unfold popMove; split <;> rfl
@[simp] theorem popMove_xlen : (popMove s).xlen = s.xlen := by unfold popMove; split <;> rfl
@[simp] theorem popMove_txseq : (popMove s).txseq = s.txseq := by unfold popMove; split <;> rfl
@[simp] theorem popMove_txidx : (popMove s).txidx = s.txidx := by unfold popMove; split <;> rfl
@[simp] theorem popMove_rxidx : (popMove s).rxidx = s.rxidx := by unfold popMove; split <;> rfl
@[simp] theorem popMove_acc : (popMove s).acc = s.acc := by unfold popMove; split <;> rfl
@[simp] theorem popMove_txs : (popMove s).txs = s.txs := by unfold popMove; split <;> rfl
@[simp] theorem popMove_rxq : (popMove s).rxq = s.rxq := by unfold popMove; split <;> rfl
@[simp] theorem popMove_rxend : (popMove s).rxend = s.rxend := by unfold popMove; split <;> rfl
@[simp] theorem popMove_hostIn : (popMove s).hostIn = s.hostIn := by unfold popMove; split <;> rfl

end popMoveFields

/-- The next move of a state with a planned move. -/
@[simp] theorem nextMove_plan_cons (s : State) (m : Move) (ms : List Move) : nextMove (s.plan (m :: ms)) = m := rfl

/-- A planned move is taken off by popMove. -/
@[simp] theorem popMove_plan_cons (s : State) (m : Move) (ms : List Move) : popMove (s.plan (m :: ms)) = s.plan ms := rfl

@[simp] theorem plan_nil (s : State) : s.plan [] = s := rfl

end Sys2Proof.Machine
end

