-- ==== Sys2Proof/Laws/Ops.lean ====
section
/-!
SUPPORT. For each shared operation, the lemma that says once everything it can do; the meanings of the rows in terms of them.
-/
namespace Sys2Proof.Machine

/-! ## Commands -/

theorem onCommand_busy (w : Word) (s : State) (body : State → Out) (h : s.busy = true) :
    onCommand w s body = .next (overrun s) := by simp [onCommand, h]

theorem onCommand_idle (w : Word) (s : State) (body : State → Out) (h : s.busy = false) :
    onCommand w s body = body (acceptCommand w s) := by simp [onCommand, h]

theorem onOpenStream_ended (s : State) (body : Out) (h : s.eosf = true) :
    onOpenStream s body = .next (complete .eos 0 s) := by simp [onOpenStream, h]

theorem onOpenStream_open (s : State) (body : Out) (h : s.eosf = false) : onOpenStream s body = body := by
  simp [onOpenStream, h]

theorem withPayload_holds (n : Nat) (s : State) (body : List Byte → Out) (p : List Byte) (hn : p.length = n)
    (h : PbufHolds s.pbuf p) : withPayload n s body = body p := by
  simp [withPayload, Memory.readBytes_of_holds s.pbuf p n hn h]

theorem withPayload_unwritten (n k : Nat) (s : State) (body : List Byte → Out) (hk : k < n)
    (h : Memory.read s.pbuf k = none) : withPayload n s body = .fault .unwrittenPayload := by
  simp [withPayload, Memory.readBytes_eq_none s.pbuf 0 n k (by omega) (by omega) h]

/-- What withPayload can answer: its body on the bytes that stand in PBUF, or the fault. -/
theorem withPayload_next {n : Nat} {s t : State} {body : List Byte → Out} (h : withPayload n s body = .next t) :
    ∃ p, p.length = n ∧ PbufHolds s.pbuf p ∧ body p = .next t := by
  unfold withPayload at h
  split at h
  · next p hp =>
    obtain ⟨hl, hh⟩ := Memory.holds_of_readBytes _ _ _ hp
    exact ⟨p, hl, hh, h⟩
  · cases h

/-- Every DECODE row is one command whose body decodes in place. -/
theorem exec_decodeRow (f : Format) (addr len : Byte) (s : State) :
    exec (Instr.decodeRow f addr len) s =
      onCommand (commandWord opDecode f.code addr len) s (decodeInPlace (fmtlen f) (decodeValue f)) := by
  cases f <;> rfl

/-- Every RDCH row is one command whose body starts a short read. -/
theorem exec_rdchRow (f : Format) (addr len : Byte) (s : State) :
    exec (Instr.rdchRow f addr len) s =
      onCommand (commandWord opRdch f.code addr len) s (startChannelRead f addr) := by
  cases f <;> rfl

/-- acceptCommand reads no bit of the word above bit 23. -/
theorem acceptCommand_fields (w : Word) (s : State) :
    acceptCommand (commandWord (opOf w) (fmtOf w) (addrOf w) (lenOf w)) s = acceptCommand w s := by
  have h : ((commandWord (opOf w) (fmtOf w) (addrOf w) (lenOf w)).extractLsb' 0 24) = w.extractLsb' 0 24 := by
    apply BitVec.eq_of_toNat_eq
    simp only [commandWord_fields, BitVec.extractLsb'_toNat, BitVec.toNat_and, Nat.shiftRight_zero]
    rw [show (0x00FFFFFF : Word).toNat = 2 ^ 24 - 1 from rfl, Nat.and_two_pow_sub_one_eq_mod, Nat.mod_mod]
  simp [acceptCommand, h]

theorem acceptCommand_cmd_toNat (w : Word) (s : State) : (acceptCommand w s).cmd.toNat = w.toNat % 2 ^ 24 := by
  simp [acceptCommand, BitVec.extractLsb'_toNat]
  omega

theorem fmtlen_lt (f : Format) : fmtlen f ≤ 4 := by cases f <;> decide

theorem fmtlen_toNat (f : Format) : (BitVec.ofNat 8 (fmtlen f)).toNat = fmtlen f := by cases f <;> rfl

/-! ## Flags -/

theorem writeStatus_eq (v : Word) (s : State) : writeStatus v s = { s with ovr := s.ovr && !v.getLsbD 9 } := by
  unfold writeStatus
  split <;> simp_all

theorem complete_failure (e : ErrCode) (v : Int) (s : State) (h : e ≠ .none) : (complete e v s).result = 0 := by
  simp [h]

/-! ## Engine steps -/

theorem transmit_none (s : State) (h : s.txseq[s.txidx]? = none) : transmit s = s := by simp [transmit, h]

/-- The transmit step, with a byte left. -/
theorem transmit_some (s : State) (b : Byte) (h : s.txseq[s.txidx]? = some b) :
    transmit s = if s.txidx + 1 = s.txseq.length
      then { s with txs := s.txs ++ [b], txidx := s.txidx + 1, phase := .rx, rxidx := 0, acc := 0 }
      else { s with txs := s.txs ++ [b], txidx := s.txidx + 1 } := by
  simp only [transmit, h, put]

theorem ackStep_eq (k : Byte) (s : State) :
    ackStep k s = complete (if k = s.txchk then .none else .chksum) 0 { s with rxchk := k, rxsum := 0 } := by
  unfold ackStep
  split <;> rfl

/-- A byte sum that is 0xFF mod 256, seen in 8 bits. -/
theorem add_eq_ff (x y : Byte) : x + y = 0xFF ↔ (x.toNat + y.toNat) % 256 = 0xFF := by
  rw [← BitVec.toNat_inj, BitVec.toNat_add]
  simp

theorem trailingStep_bad (t : Byte) (s : State) (h : s.acc + t ≠ 0xFF) :
    trailingStep t s = .next (complete .chksum 0 { s with rxchk := t, rxsum := s.acc + t }) := by
  unfold trailingStep
  exact if_pos h

theorem trailingStep_sread (t : Byte) (s : State) (h : s.acc + t = 0xFF) (hx : s.xop = .sread) :
    trailingStep t s = .next (complete .none 0 { s with rxchk := t, rxsum := s.acc + t }) := by
  simp [trailingStep, h, hx]

theorem trailingStep_channel (t : Byte) (s : State) (f : Format) (p : List Byte) (h : s.acc + t = 0xFF)
    (hx : s.xop ≠ .sread) (hf : Format.ofCode s.xfmt = some f) (hn : p.length = fmtlen f) (hp : PbufHolds s.pbuf p) :
    trailingStep t s = .next (complete .none (decodeValue f p) { s with rxchk := t, rxsum := s.acc + t }) := by
  simp only [trailingStep, h, ne_eq, not_true_eq_false, if_false, if_neg hx, completeChannelRead, hf, decodeInPlace]
  exact withPayload_holds _ _ _ p hn hp

/-- What the trailing byte can do: complete with success or CHKSUM. -/
theorem trailingStep_next {b : Byte} {s t : State} (h : trailingStep b s = .next t) :
    ∃ e v, (e = .none ∨ e = .chksum) ∧ t = complete e v { s with rxchk := b, rxsum := s.acc + b } := by
  simp only [trailingStep] at h
  split at h
  · cases h
    exact ⟨.chksum, 0, .inr rfl, rfl⟩
  split at h
  · cases h
    exact ⟨.none, 0, .inl rfl, rfl⟩
  · unfold completeChannelRead at h
    split at h
    · obtain ⟨p, -, -, hp⟩ := withPayload_next h
      cases hp
      exact ⟨.none, _, .inl rfl, rfl⟩
    · cases h

/-- The response byte's meaning, its guard true. -/
theorem exec_shortReadResp (b : Byte) (rest : List Byte) (s : State) (hp : s.phase = .rx) (hx : s.xop ≠ .swrite)
    (hq : s.rxq = b :: rest) :
    exec (.shortReadResp b) s =
      if s.rxidx < s.xlen.toNat then .next (payloadStep b { s with rxq := rest })
      else if s.rxidx = s.xlen.toNat then trailingStep b { s with rxq := rest }
      else .next s := by
  simp [exec, execShortReadResp, hp, hx, hq]

/-- The ack byte's meaning, its guard true. -/
theorem exec_shortWriteAck (k : Byte) (rest : List Byte) (s : State) (hp : s.phase = .rx) (hx : s.xop = .swrite)
    (hq : s.rxq = k :: rest) : exec (.shortWriteAck k) s = .next (ackStep k { s with rxq := rest }) := by
  simp [exec, execShortWriteAck, hp, hx, hq]

/-- While TX, an engine move is the transmit step, whatever stands in TXSEQ. -/
theorem engineMove_tx (s : State) (hp : s.phase = .tx) : engineMove s = .next (transmit s) := by
  unfold engineMove
  simp only [hp, decode]
  split
  · next i hi =>
    rcases decodeRequest_ok hi with ⟨a, n, rfl, hf⟩ | ⟨a, n, p, rfl, -, hf⟩
    · simp [exec, execShortReadReq, hp, hf]
    · simp [exec, execShortWriteReq, hp, hf]
  · rfl

theorem engineMove_idle (s : State) (hp : s.phase = .idle) : engineMove s = .next s := by
  simp [engineMove, hp]

theorem engineMove_hold (s : State) (hp : s.phase = .rx) (hq : s.rxq = []) (he : s.rxend = false) :
    engineMove s = .next s := by
  simp [engineMove, hp, get, hq, he]

theorem engineMove_eos (s : State) (hp : s.phase = .rx) (hq : s.rxq = []) (he : s.rxend = true) :
    engineMove s = .next (complete .eos 0 s) := by
  simp [engineMove, hp, get, hq, he]

theorem engineMove_response (s : State) (b : Byte) (rest : List Byte) (hp : s.phase = .rx) (hq : s.rxq = b :: rest)
    (hx : s.xop ≠ .swrite) : engineMove s = exec (.shortReadResp b) s := by
  cases h : s.xop <;> simp_all [engineMove, get]

theorem engineMove_ack (s : State) (k : Byte) (rest : List Byte) (hp : s.phase = .rx) (hq : s.rxq = k :: rest)
    (hx : s.xop = .swrite) : engineMove s = exec (.shortWriteAck k) s := by
  simp [engineMove, hp, get, hq, hx]

end Sys2Proof.Machine
end

