-- ==== Sys2Proof/Laws/Step.lean ====
section
/-!
SUPPORT. Everything one step can do, said once: `Effect s m t` lists what the move m can make of s, and `step_effect` says that a
step that answers a next state is one of them. Invariants and whole-machine rules are case splits over Effect.
-/
namespace Sys2Proof.Machine

/-- An exchange that R111 starts: a short read of n bytes, of an RDCH's own format length, or a short write of n bytes. -/
inductive LegalStart : ExchangeOp → Byte → Nibble → List Byte → Prop where
  | sread (a n : Byte) (f : Nibble) : LegalStart .sread n f (shortReadFrame a n)
  | rdch (a n : Byte) (g : Format) (hn : n.toNat = fmtlen g) : LegalStart .rdch n g.code (shortReadFrame a n)
  | swrite (a n : Byte) (f : Nibble) (p : List Byte) (hp : p.length = n.toNat) :
      LegalStart .swrite n f (shortWriteFrame a n p)

/-- What a move can make of a state. -/
inductive Effect (s : State) : Move → State → Prop where
  /-- No rule is enabled, or the access does not reach the block or is ignored without a flag. -/
  | nothing (m : Move) : Effect s m s
  | load (off size : Nat) (v : Word) : Effect s (.hostRead off size) { s with hostIn := s.hostIn ++ [v] }
  | status (v : Word) : Effect s (.hostWrite 0x004 4 v) { s with ovr := s.ovr && !v.getLsbD 9 }
  | overrun (off size : Nat) (v : Word) (hb : s.busy = true) (ho : off = 0x000 ∨ 0x100 ≤ off ∧ off < 0x200) :
      Effect s (.hostWrite off size v) (overrun s)
  | fill (off size : Nat) (v : Word) (hb : s.busy = false)
      (ho : 0x100 ≤ off ∧ off - 0x100 + ((wordBytes v).take size).length ≤ 256) :
      Effect s (.hostWrite off size v)
        { s with pbuf := Memory.writeBytes s.pbuf (off - 0x100) ((wordBytes v).take size) }
  | finish (w : Word) (e : ErrCode) (v : Int) (hb : s.busy = false) (he : e = .eos → s.eosf = true) :
      Effect s (.hostWrite 0x000 4 w) (complete e v (acceptCommand w s))
  | start (w : Word) (x : ExchangeOp) (n : Byte) (f : Nibble) (frame : List Byte) (hb : s.busy = false)
      (he : s.eosf = false) (hl : LegalStart x n f frame) :
      Effect s (.hostWrite 0x000 4 w) (startExchange x n f frame (acceptCommand w s))
  | send (b : Byte) (hp : s.phase = .tx) (hb : s.txseq[s.txidx]? = some b) : Effect s .engine (transmit s)
  | take (b : Byte) (rest : List Byte) (hp : s.phase = .rx) (hx : s.xop ≠ .swrite) (hq : s.rxq = b :: rest)
      (hi : s.rxidx < s.xlen.toNat) : Effect s .engine (payloadStep b { s with rxq := rest })
  | judge (b : Byte) (rest : List Byte) (e : ErrCode) (v : Int) (hp : s.phase = .rx) (hx : s.xop ≠ .swrite)
      (hq : s.rxq = b :: rest) (hi : s.rxidx = s.xlen.toNat) (he : e = .none ∨ e = .chksum) :
      Effect s .engine (complete e v { s with rxq := rest, rxchk := b, rxsum := s.acc + b })
  | ack (k : Byte) (rest : List Byte) (e : ErrCode) (hp : s.phase = .rx) (hx : s.xop = .swrite) (hq : s.rxq = k :: rest)
      (he : e = .none ∨ e = .chksum) :
      Effect s .engine (complete e 0 { s with rxq := rest, rxchk := k, rxsum := 0 })
  | eos (hp : s.phase = .rx) (hq : s.rxq = []) (hend : s.rxend = true) : Effect s .engine (complete .eos 0 s)
  | sent (b : Byte) (hend : s.rxend = false) : Effect s (.instrByte b) { s with rxq := s.rxq ++ [b] }
  | close : Effect s .instrEnd (instrumentEnd s)
  | reset : Effect s .reset (resetBlock s)

/-- An engine move is one of the engine's rules, or none is enabled. -/
theorem engineMove_effect {s t : State} (h : engineMove s = .next t) : Effect s .engine t := by
  cases hp : s.phase with
  | idle => rw [engineMove_idle s hp] at h; cases h; exact .nothing _
  | tx =>
    rw [engineMove_tx s hp] at h
    cases h
    cases hb : s.txseq[s.txidx]? with
    | none => rw [transmit_none s hb]; exact .nothing _
    | some b => exact .send b hp hb
  | rx =>
    cases hq : s.rxq with
    | nil =>
      cases he : s.rxend with
      | false => rw [engineMove_hold s hp hq he] at h; cases h; exact .nothing _
      | true => rw [engineMove_eos s hp hq he] at h; cases h; exact .eos hp hq he
    | cons b rest =>
      by_cases hx : s.xop = .swrite
      · rw [engineMove_ack s b rest hp hq hx, exec_shortWriteAck b rest s hp hx hq, ackStep_eq] at h
        cases h
        exact .ack b rest _ hp hx hq (by split <;> simp)
      · rw [engineMove_response s b rest hp hq hx, exec_shortReadResp b rest s hp hx hq] at h
        split at h
        · next hi => cases h; exact .take b rest hp hx hq hi
        split at h
        · next hi =>
          obtain ⟨e, v, he, rfl⟩ := trailingStep_next h
          exact .judge b rest e v hp hx hq hi he
        · cases h; exact .nothing _

/-- What a command row can do to the block that meets it. -/
theorem exec_command_effect {w : Word} {i : Instr} {s t : State} (hd : decodeCommand w = .ok i)
    (h : exec i s = .next t) : Effect s (.hostWrite 0x000 4 w) t := by
  have hacc := acceptCommand_fields w s
  cases hb : s.busy with
  | true =>
    suffices t = Machine.overrun s by subst this; exact .overrun _ _ _ hb (.inl rfl)
    rcases decodeCommand_ok hd with ⟨-, rfl⟩ | ⟨-, rfl⟩ | ⟨f, -, -, rfl⟩ | ⟨f, -, -, rfl⟩
    · simp only [exec, execSread, onCommand_busy _ _ _ hb] at h; cases h; rfl
    · simp only [exec, execSwrite, onCommand_busy _ _ _ hb] at h; cases h; rfl
    · rw [exec_decodeRow, onCommand_busy _ _ _ hb] at h; cases h; rfl
    · rw [exec_rdchRow, onCommand_busy _ _ _ hb] at h; cases h; rfl
  | false =>
    rcases decodeCommand_ok hd with ⟨ho, rfl⟩ | ⟨ho, rfl⟩ | ⟨f, ho, hf, rfl⟩ | ⟨f, ho, hf, rfl⟩
    · simp only [exec, execSread, onCommand_idle _ _ _ hb, ← ho, hacc] at h
      cases he : s.eosf with
      | true => rw [onOpenStream_ended _ _ (by simpa using he)] at h; cases h; exact .finish _ _ _ hb fun _ => he
      | false =>
        rw [onOpenStream_open _ _ (by simpa using he)] at h; cases h
        exact .start _ _ _ _ _ hb he (.sread _ _ _)
    · simp only [exec, execSwrite, onCommand_idle _ _ _ hb, ← ho, hacc] at h
      cases he : s.eosf with
      | true => rw [onOpenStream_ended _ _ (by simpa using he)] at h; cases h; exact .finish _ _ _ hb fun _ => he
      | false =>
        rw [onOpenStream_open _ _ (by simpa using he)] at h
        obtain ⟨p, hl, -, hp⟩ := withPayload_next h
        cases hp
        exact .start _ _ _ _ _ hb he (.swrite _ _ _ p hl)
    · rw [exec_decodeRow, ← ho, ← hf, onCommand_idle _ _ _ hb, hacc] at h
      obtain ⟨p, -, -, hp⟩ := withPayload_next h
      cases hp
      exact .finish _ _ _ hb (by simp)
    · rw [exec_rdchRow, ← ho, ← hf, onCommand_idle _ _ _ hb, hacc, startChannelRead] at h
      cases he : s.eosf with
      | true => rw [onOpenStream_ended _ _ (by simpa using he)] at h; cases h; exact .finish _ _ _ hb fun _ => he
      | false =>
        rw [onOpenStream_open _ _ (by simpa using he)] at h; cases h
        exact .start _ _ _ _ _ hb he (.rdch _ _ f (fmtlen_toNat f))

theorem storeCommand_effect {w : Word} {s t : State} (h : storeCommand w s = .next t) :
    Effect s (.hostWrite 0x000 4 w) t := by
  unfold storeCommand at h
  rw [decode_command_wordBytes] at h
  split at h
  · next i hi => exact exec_command_effect hi h
  · next r _ =>
    cases hb : s.busy with
    | true =>
      cases r <;> simp only [rejectCommand, onCommand_busy _ _ _ hb] at h <;> cases h
      · exact .overrun _ _ _ hb (.inl rfl)
      · exact .overrun _ _ _ hb (.inl rfl)
      all_goals exact .nothing _
    | false =>
      cases r <;> simp only [rejectCommand, onCommand_idle _ _ _ hb] at h <;> cases h
      · exact .finish _ _ _ hb (by simp)
      · exact .finish _ _ _ hb (by simp)
      all_goals exact .nothing _

/-- The supported accesses, in arithmetic (R41). -/
theorem supported_iff (off size : Nat) : supported off size = true ↔
    size = 4 ∧ off % 4 = 0 ∧ off < 0x200 ∨ size = 1 ∧ 0x100 ≤ off ∧ off < 0x200 := by
  simp only [supported, Bool.or_eq_true, decide_eq_true_eq]
  omega

theorem hostLoad_effect {off size : Nat} {s t : State} (h : hostLoad off size s = .next t) :
    Effect s (.hostRead off size) t := by
  unfold hostLoad at h
  split at h
  · split at h
    · split at h
      · next v _ => cases h; exact .load off size v
      · cases h
    · cases h
  · cases h; exact .nothing _

theorem hostStore_effect {off size : Nat} {v : Word} {s t : State} (h : hostStore off size v s = .next t) :
    Effect s (.hostWrite off size v) t := by
  unfold hostStore at h
  split at h
  · split at h
    · next hs =>
      rw [supported_iff] at hs
      split at h
      · next h0 =>
        subst h0
        obtain rfl : size = 4 := by omega
        exact storeCommand_effect h
      · next h0 =>
        cases h
        unfold storeValue
        split
        · next h4 =>
          subst h4
          obtain rfl : size = 4 := by omega
          rw [writeStatus_eq]
          exact .status v
        split
        · exact .nothing _
        split
        · next hb => exact .overrun _ _ _ hb (by omega)
        · next hb =>
          refine .fill _ _ _ (by simpa using hb) ?_
          simp only [List.length_take, wordBytes, List.length_cons, List.length_nil]
          omega
    · cases h
  · cases h; exact .nothing _

/-- One move that answers a next state has one of the listed effects. -/
theorem runMove_effect {m : Move} {s t : State} (h : runMove m s = .next t) : Effect s m t := by
  cases m with
  | hostRead off size => exact hostLoad_effect h
  | hostWrite off size v => exact hostStore_effect h
  | engine => exact engineMove_effect h
  | instrByte b =>
    cases h
    unfold instrumentByte
    split
    · exact .nothing _
    · next hend => exact .sent b (by simpa using hend)
  | instrEnd => cases h; exact .close
  | reset => cases h; exact .reset

/-- One step that answers a next state has one of the listed effects, of its next move, on the state with that move taken
off. -/
theorem step_effect {s t : State} (h : step s = .next t) : Effect (popMove s) (nextMove s) t := runMove_effect h

/-- A 4-byte host store at offset 0 is a store to CMD. -/
theorem step_store_command (s : State) (w : Word) (hm : nextMove s = .hostWrite 0x000 4 w) :
    step s = storeCommand w (popMove s) := by
  simp only [step, hm, runMove, hostStore]
  rw [if_pos (by decide), if_pos (by decide)]
  exact if_pos trivial

/-- A step whose next move is the engine's. -/
theorem step_engine (s : State) (hm : nextMove s = .engine) : step s = engineMove (popMove s) := by
  simp only [step, hm, runMove]

/-- A supported host store at any offset but CMD's. -/
theorem step_store_other (s : State) (off size : Nat) (v : Word) (hm : nextMove s = .hostWrite off size v)
    (hs : supported off size = true) (h0 : off ≠ 0) : step s = .next (storeValue off size v (popMove s)) := by
  have hw : inWindow off = true := by
    rw [supported_iff] at hs
    simp only [inWindow, decide_eq_true_eq]
    omega
  simp [step, hm, runMove, hostStore, hw, hs, h0]

/-- A supported host load. -/
theorem step_load (s : State) (off size : Nat) (hm : nextMove s = .hostRead off size) (hs : supported off size = true) :
    step s = match loadValue off size (popMove s) with
      | some v => .next { popMove s with hostIn := s.hostIn ++ [v] }
      | none => .fault .unwrittenPayload := by
  have hw : inWindow off = true := by
    rw [supported_iff] at hs
    simp only [inWindow, decide_eq_true_eq]
    omega
  simp only [step, hm, runMove, hostLoad, hw, hs, if_true]
  split <;> simp_all

/-! ## Runs -/

theorem steps_succ {s t : State} (k : Nat) (h : step s = .next t) : steps (k + 1) s = steps k t := by
  simp [steps, h]

/-- A run of k + j steps is a run of k and then one of j. -/
theorem steps_add {s t : State} {k : Nat} (j : Nat) (h : steps k s = .next t) : steps (k + j) s = steps j t := by
  induction k generalizing s with
  | zero => cases h; simp
  | succ k ih =>
    rw [show k + 1 + j = (k + j) + 1 by omega]
    rw [steps] at h ⊢
    split at h
    · next u hu => simpa [hu] using ih h
    · cases h
    · cases h

/-- The model's run is the host's run of the machine behind Host.Core. -/
theorem steps_eq_core_run (k : Nat) (s : State) : steps k s = core.run k s := by
  induction k generalizing s with
  | zero => rfl
  | succ k ih =>
    cases hs : step s with
    | next t =>
      have hc : core.step s = .next t := hs
      simp only [steps, hs, Host.Core.run, hc, ih]
      rfl
    | fault r =>
      have hc : core.step s = .fault r := hs
      simp only [steps, hs, Host.Core.run, hc]
      rfl
    | refused r =>
      have hc : core.step s = .refused r := hs
      simp only [steps, hs, Host.Core.run, hc]
      rfl

end Sys2Proof.Machine
end

