-- ==== Sys2Proof/Laws/Exchange.lean ====
section
/-!
SUPPORT. Runs of an exchange under a plan of moves: the command's step, the engine's transmit steps in a row, and its payload
steps in a row.
-/
namespace Sys2Proof.Machine

/-- The step of a planned engine move. -/
theorem step_plan_engine (s : State) (ms : List Move) : step (s.plan (.engine :: ms)) = engineMove (s.plan ms) := by
  rw [step_engine _ (nextMove_plan_cons s _ ms), popMove_plan_cons]

/-- The step of a planned store to CMD whose word decodes. -/
theorem step_plan_command (s : State) (ms : List Move) (w : Word) (i : Instr) (h : decodeCommand w = .ok i) :
    step (s.plan (.hostWrite 0x000 4 w :: ms)) = exec i (s.plan ms) := by
  rw [step_store_command _ w (nextMove_plan_cons s _ ms), storeCommand, decode_command_wordBytes, h, popMove_plan_cons]

theorem transmit_plan (s : State) (ms : List Move) : transmit (s.plan ms) = (transmit s).plan ms := by
  cases hb : s.txseq[s.txidx]? with
  | none => rw [transmit_none s hb]; exact transmit_none (s.plan ms) hb
  | some b =>
    rw [transmit_some s b hb, transmit_some (s.plan ms) b hb]
    by_cases h : s.txidx + 1 = s.txseq.length
    · rw [if_pos h]; exact if_pos h
    · rw [if_neg h]; exact if_neg h

theorem step_plan_tx (s : State) (ms : List Move) (hp : s.phase = .tx) :
    step (s.plan (.engine :: ms)) = .next ((transmit s).plan ms) := by
  rw [step_plan_engine, engineMove_tx (s.plan ms) hp, transmit_plan]

/-- From TX with k + 1 bytes of TXSEQ left, k + 1 engine moves put them all, in order, and end in RX. -/
theorem steps_send (k : Nat) (s : State) (ms : List Move) (hp : s.phase = .tx) (hi : s.txidx + (k + 1) = s.txseq.length) :
    steps (k + 1) (s.plan (List.replicate (k + 1) .engine ++ ms)) =
      .next (({ s with
        txs := s.txs ++ s.txseq.drop s.txidx, txidx := s.txseq.length, phase := .rx, rxidx := 0, acc := 0 } : State).plan
          ms) := by
  induction k generalizing s with
  | zero =>
    have hb : s.txseq[s.txidx]? = some s.txseq[s.txidx] := List.getElem?_eq_getElem (by omega)
    have hd : s.txseq.drop s.txidx = [s.txseq[s.txidx]] := by
      rw [List.drop_eq_getElem_cons (by omega), List.drop_of_length_le (by omega)]
    have ht : transmit s = { s with
        txs := s.txs ++ s.txseq.drop s.txidx, txidx := s.txseq.length, phase := .rx, rxidx := 0, acc := 0 } := by
      rw [transmit_some _ _ hb, if_pos (by omega), hd]
      simp only [show s.txidx + 1 = s.txseq.length by omega]
    rw [show List.replicate (0 + 1) Move.engine ++ ms = .engine :: ms from rfl, steps_succ _ (step_plan_tx s ms hp), ht]
    rfl
  | succ k ih =>
    have hb : s.txseq[s.txidx]? = some s.txseq[s.txidx] := List.getElem?_eq_getElem (by omega)
    have hd : s.txseq.drop s.txidx = s.txseq[s.txidx] :: s.txseq.drop (s.txidx + 1) :=
      List.drop_eq_getElem_cons (by omega)
    have ht : transmit s = { s with txs := s.txs ++ [s.txseq[s.txidx]], txidx := s.txidx + 1 } := by
      rw [transmit_some _ _ hb, if_neg (by omega)]
    have hrun := ih (transmit s) (by rw [ht]; exact hp) (by rw [ht]; simp only []; omega)
    rw [List.replicate_succ, List.cons_append, steps_succ _ (step_plan_tx s _ hp), hrun, ht, hd]
    simp

/-- In RX of a short read with the bytes q queued and room for them, q.length engine moves take them into PBUF, in order. -/
theorem steps_take (q : List Byte) (s : State) (ms : List Move) (rest : List Byte) (hp : s.phase = .rx)
    (hx : s.xop ≠ .swrite) (hq : s.rxq = q ++ rest) (hl : s.rxidx + q.length ≤ s.xlen.toNat) :
    steps q.length (s.plan (List.replicate q.length .engine ++ ms)) =
      .next (({ s with
        rxq := rest, rxidx := s.rxidx + q.length, acc := s.acc + BitVec.ofNat 8 (byteSum q),
        pbuf := Memory.writeBytes s.pbuf s.rxidx q } : State).plan ms) := by
  induction q generalizing s with
  | nil =>
    simp at hq
    simp [steps, ← hq, byteSum, Memory.writeBytes, State.plan]
  | cons b q ih =>
    simp only [List.length_cons] at hl
    have hlt : s.rxidx < s.xlen.toNat := by omega
    let s' : State := payloadStep b { s with rxq := q ++ rest }
    have hstep : step (s.plan (.engine :: (List.replicate q.length .engine ++ ms))) =
        .next (s'.plan (List.replicate q.length .engine ++ ms)) := by
      rw [step_plan_engine, engineMove_response (s.plan _) b (q ++ rest) hp hq hx,
        exec_shortReadResp b (q ++ rest) (s.plan _) hp hx hq]
      exact if_pos hlt
    have hsum : s.acc + BitVec.ofNat 8 (byteSum (b :: q)) = s.acc + b + BitVec.ofNat 8 (byteSum q) := by
      rw [byteSum, BitVec.ofNat_add, BitVec.ofNat_toNat, BitVec.setWidth_eq, BitVec.add_assoc]
    rw [List.length_cons, List.replicate_succ, List.cons_append, steps_succ _ hstep,
      ih s' hp hx rfl (show s.rxidx + 1 + q.length ≤ s.xlen.toNat by omega), hsum]
    simp [s', payloadStep, Memory.writeBytes, State.plan, Nat.add_assoc, Nat.add_comm 1]

/-- The bytes of a block write stand where they were written. -/
theorem PbufHolds.of_writeBytes (m : Memory) (p : List Byte) : PbufHolds (Memory.writeBytes m 0 p) p := fun k h => by
  simpa using Memory.read_writeBytes_same p m 0 k h

/-- The state in which a started exchange has sent its whole request frame and turned round. -/
def turned (x : ExchangeOp) (n : Byte) (f : Nibble) (frame : List Byte) (w : Word) (s : State) : State :=
  { startExchange x n f frame (acceptCommand w s) with txs := s.txs ++ frame, txidx := frame.length, phase := .rx }

/-- A command that starts an exchange, and the engine's transmit steps: the whole frame is sent. -/
theorem steps_start (x : ExchangeOp) (w : Word) (i : Instr) (n : Byte) (f : Nibble) (frame : List Byte) (s : State)
    (ms : List Move) (hd : decodeCommand w = .ok i) (hf : frame ≠ [])
    (he : ∀ ms, exec i (s.plan ms) = .next (startExchange x n f frame (acceptCommand w (s.plan ms)))) :
    steps (frame.length + 1) (s.plan (.hostWrite 0x000 4 w :: (List.replicate frame.length .engine ++ ms))) =
      .next ((turned x n f frame w s).plan ms) := by
  obtain ⟨k, hk⟩ : ∃ k, frame.length = k + 1 := ⟨frame.length - 1, by have := List.length_pos_of_ne_nil hf; omega⟩
  have hr := steps_send k (startExchange x n f frame (acceptCommand w s)) ms rfl (by simp [hk])
  have hs : step (s.plan (.hostWrite 0x000 4 w :: (List.replicate frame.length .engine ++ ms))) =
      .next ((startExchange x n f frame (acceptCommand w s)).plan (List.replicate frame.length .engine ++ ms)) := by
    rw [step_plan_command s _ w i hd, he]
    rfl
  rw [steps_succ _ hs, hk, hr]
  simp [turned, hk]

/-- A started short read of n bytes with its payload bytes queued: n + 5 steps on, they stand in PBUF and the trailing byte is
next. -/
theorem steps_read (x : ExchangeOp) (w : Word) (i : Instr) (a n : Byte) (f : Nibble) (p rest : List Byte) (s : State)
    (ms : List Move) (hd : decodeCommand w = .ok i) (hx : x ≠ .swrite) (hl : p.length ≤ n.toNat) (hq : s.rxq = p ++ rest)
    (he : ∀ ms, exec i (s.plan ms) = .next (startExchange x n f (shortReadFrame a n) (acceptCommand w (s.plan ms)))) :
    steps (p.length + 5) (s.plan (.hostWrite 0x000 4 w :: (List.replicate (p.length + 4) .engine ++ ms))) =
      .next (({ turned x n f (shortReadFrame a n) w s with
        rxq := rest, rxidx := p.length, acc := BitVec.ofNat 8 (byteSum p),
        pbuf := Memory.writeBytes s.pbuf 0 p } : State).plan ms) := by
  have hf : (shortReadFrame a n).length = 4 := rfl
  have h1 := steps_start x w i n f (shortReadFrame a n) s (List.replicate p.length .engine ++ ms) hd (by simp [← List.length_pos_iff, hf]) he
  have h2 := steps_take p (turned x n f (shortReadFrame a n) w s) ms rest rfl hx hq (by simpa [turned] using hl)
  rw [hf] at h1
  rw [Nat.add_comm p.length 4, Nat.add_comm p.length 5, List.replicate_add, List.append_assoc, steps_add _ h1, h2]
  simp [turned]

/-- The step of a planned engine move on the trailing byte of a short read. -/
theorem step_trailing (t : Byte) (rest : List Byte) (s : State) (ms : List Move) (hp : s.phase = .rx) (hx : s.xop ≠ .swrite)
    (hq : s.rxq = t :: rest) (hi : s.rxidx = s.xlen.toNat) :
    step (s.plan (.engine :: ms)) = trailingStep t (({ s with rxq := rest } : State).plan ms) := by
  rw [step_plan_engine, engineMove_response (s.plan ms) t rest hp hq hx, exec_shortReadResp t rest (s.plan ms) hp hx hq]
  exact (if_neg (show ¬ s.rxidx < s.xlen.toNat by omega)).trans (if_pos hi)

/-- Engine moves while RX has nothing to take and the stream is open. -/
theorem steps_hold (k : Nat) (s : State) (ms : List Move) (hp : s.phase = .rx) (hq : s.rxq = []) (he : s.rxend = false) :
    steps k (s.plan (List.replicate k .engine ++ ms)) = .next (s.plan ms) := by
  induction k with
  | zero => rfl
  | succ k ih =>
    have hs : step (s.plan (.engine :: (List.replicate k .engine ++ ms))) = .next (s.plan (List.replicate k .engine ++ ms)) := by
      rw [step_plan_engine, engineMove_hold (s.plan _) hp hq he]
    rw [List.replicate_succ, List.cons_append, steps_succ _ hs, ih]

/-- Engine moves while IDLE. -/
theorem steps_idle (k : Nat) (s : State) (ms : List Move) (hp : s.phase = .idle) :
    steps k (s.plan (List.replicate k .engine ++ ms)) = .next (s.plan ms) := by
  induction k with
  | zero => rfl
  | succ k ih =>
    have hs : step (s.plan (.engine :: (List.replicate k .engine ++ ms))) = .next (s.plan (List.replicate k .engine ++ ms)) := by
      rw [step_plan_engine, engineMove_idle (s.plan _) hp]
    rw [List.replicate_succ, List.cons_append, steps_succ _ hs, ih]

/-- One engine move that completes, and engine moves after it. -/
theorem steps_complete (k : Nat) (s t : State) (ms : List Move)
    (h : step (s.plan (.engine :: (List.replicate k .engine ++ ms))) = .next (t.plan (List.replicate k .engine ++ ms)))
    (ht : t.phase = .idle) : steps (k + 1) (s.plan (List.replicate (k + 1) .engine ++ ms)) = .next (t.plan ms) := by
  rw [List.replicate_succ, List.cons_append, steps_succ _ h, steps_idle k t ms ht]

end Sys2Proof.Machine
end

