-- ==== Sys2Proof/Laws/Operands.lean ====
section
/-!
SUPPORT. The value decoder in plain arithmetic: raw values, sign by inversion, and the toward-zero quotient.
-/
namespace Sys2Proof.Machine

theorem rawValue_lt (n : Nat) (p : List Byte) : rawValue n p < 256 ^ n :=
  Nat.lt_of_lt_of_le (leValue_lt _) (Nat.pow_le_pow_right (by decide) (by simp))

@[simp] theorem rawValue_one (b : Byte) (p : List Byte) : rawValue 1 (b :: p) = b.toNat := by
  simp [rawValue, leValue]

@[simp] theorem rawValue_two (b0 b1 : Byte) (p : List Byte) :
    rawValue 2 (b0 :: b1 :: p) = b0.toNat + 256 * b1.toNat := by
  simp [rawValue, leValue]

@[simp] theorem rawValue_three (b0 b1 b2 : Byte) (p : List Byte) :
    rawValue 3 (b0 :: b1 :: b2 :: p) = b0.toNat + 256 * b1.toNat + 65536 * b2.toNat := by
  simp [rawValue, leValue]
  omega

@[simp] theorem rawValue_four (b0 b1 b2 b3 : Byte) (p : List Byte) :
    rawValue 4 (b0 :: b1 :: b2 :: b3 :: p) = b0.toNat + 256 * b1.toNat + 65536 * b2.toNat + 16777216 * b3.toNat := by
  simp [rawValue, leValue]
  omega

/-- Sign by inversion as a case split on the raw value. -/
theorem signByInversion_eq (raw W S : Nat) (hW : 0 < W) (h : raw < 2 ^ W) :
    signByInversion raw W S =
      if raw < 2 ^ (W - 1) then -((raw / 2 ^ S : Nat) : Int) else (((2 ^ W - 1 - raw) / 2 ^ S : Nat) : Int) := by
  have hp : 2 ^ W = 2 ^ (W - 1) + 2 ^ (W - 1) := by
    rw [← Nat.two_mul, ← Nat.pow_succ', Nat.succ_eq_add_one, Nat.sub_add_cancel hW]
  simp only [signByInversion, Nat.and_two_pow_sub_one_eq_mod, Nat.shiftRight_eq_div_pow]
  by_cases hr : raw < 2 ^ (W - 1)
  · rw [Nat.testBit_lt_two_pow hr, if_neg (by simp), if_pos hr, Nat.mod_eq_of_lt hr]
  · have ht : raw.testBit (W - 1) = true := by
      rw [Nat.testBit_eq_decide_div_mod_eq, decide_eq_true_eq]
      have : raw / 2 ^ (W - 1) = 1 := Nat.div_eq_of_lt_le (by omega) (by omega)
      rw [this]
    rw [ht, if_pos rfl, if_neg hr, Nat.mod_eq_of_lt (by omega)]

/-- The toward-zero quotient on the two signs. -/
theorem truncDiv_natCast (a b : Nat) : truncDiv (a : Int) b = ((a / b : Nat) : Int) := by
  cases a with
  | zero => simp [truncDiv]
  | succ a =>
    rw [truncDiv, Int.sign_eq_one_of_pos (by omega), Int.natAbs_natCast, Int.one_mul]

theorem truncDiv_neg (a : Int) (b : Nat) : truncDiv (-a) b = -truncDiv a b := by
  simp [truncDiv]

/-- RESULT holds a value of the signed 32-bit range exactly. -/
theorem toInt_ofInt_32 (v : Int) (h1 : -2147483648 ≤ v) (h2 : v ≤ 2147483647) : (BitVec.ofInt 32 v).toInt = v := by
  rw [BitVec.toInt_ofInt]
  exact Int.bmod_eq_of_le (by norm_num; omega) (by norm_num; omega)

end Sys2Proof.Machine
end

