-- ==== Sys2Proof/Laws/PerInstr.lean ====
section
/-!
SUPPORT. Statements made per instruction, as syntax. EncodedLength: how many bytes an instruction takes where it stands (the
command word: 30_encoding.md R70; the frames: R75, R77; a response's byte: R76, R78, R79).
-/
namespace Sys2Proof.Laws.EncodedLength

/-- The bytes that an instruction takes at its port. -/
def size (i : Instr) : Nat :=
  match i.port, i with
  | .command, _ => 4
  | .request, .shortWriteReq _ n _ => n.toNat + 4
  | .request, _ => 4
  | .readResponse, _ => 1
  | .writeAck, _ => 1

/-- A well-formed instruction's encoding has exactly its size. -/
def Statement (i : Instr) : Prop := i.wf = true → (encode i).length = size i

theorem sread (fmt : Nibble) (addr len : Byte) : Statement (.sread fmt addr len) := fun _ => rfl

theorem swrite (fmt : Nibble) (addr len : Byte) : Statement (.swrite fmt addr len) := fun _ => rfl

theorem decodeF1 (addr len : Byte) : Statement (.decodeF1 addr len) := fun _ => rfl

theorem decodeF2 (addr len : Byte) : Statement (.decodeF2 addr len) := fun _ => rfl

theorem decodeF3 (addr len : Byte) : Statement (.decodeF3 addr len) := fun _ => rfl

theorem decodeF4 (addr len : Byte) : Statement (.decodeF4 addr len) := fun _ => rfl

theorem decodeF5 (addr len : Byte) : Statement (.decodeF5 addr len) := fun _ => rfl

theorem decodeF6 (addr len : Byte) : Statement (.decodeF6 addr len) := fun _ => rfl

theorem decodeF7 (addr len : Byte) : Statement (.decodeF7 addr len) := fun _ => rfl

theorem decodeF8 (addr len : Byte) : Statement (.decodeF8 addr len) := fun _ => rfl

theorem decodeF2b (addr len : Byte) : Statement (.decodeF2b addr len) := fun _ => rfl

theorem decodeF3b (addr len : Byte) : Statement (.decodeF3b addr len) := fun _ => rfl

theorem decodeShsel (addr len : Byte) : Statement (.decodeShsel addr len) := fun _ => rfl

theorem decodeShlbl (addr len : Byte) : Statement (.decodeShlbl addr len) := fun _ => rfl

theorem decodeU8 (addr len : Byte) : Statement (.decodeU8 addr len) := fun _ => rfl

theorem rdchF1 (addr len : Byte) : Statement (.rdchF1 addr len) := fun _ => rfl

theorem rdchF2 (addr len : Byte) : Statement (.rdchF2 addr len) := fun _ => rfl

theorem rdchF3 (addr len : Byte) : Statement (.rdchF3 addr len) := fun _ => rfl

theorem rdchF4 (addr len : Byte) : Statement (.rdchF4 addr len) := fun _ => rfl

theorem rdchF5 (addr len : Byte) : Statement (.rdchF5 addr len) := fun _ => rfl

theorem rdchF6 (addr len : Byte) : Statement (.rdchF6 addr len) := fun _ => rfl

theorem rdchF7 (addr len : Byte) : Statement (.rdchF7 addr len) := fun _ => rfl

theorem rdchF8 (addr len : Byte) : Statement (.rdchF8 addr len) := fun _ => rfl

theorem rdchF2b (addr len : Byte) : Statement (.rdchF2b addr len) := fun _ => rfl

theorem rdchF3b (addr len : Byte) : Statement (.rdchF3b addr len) := fun _ => rfl

theorem rdchShsel (addr len : Byte) : Statement (.rdchShsel addr len) := fun _ => rfl

theorem rdchShlbl (addr len : Byte) : Statement (.rdchShlbl addr len) := fun _ => rfl

theorem rdchU8 (addr len : Byte) : Statement (.rdchU8 addr len) := fun _ => rfl

theorem shortReadReq (a n : Byte) : Statement (.shortReadReq a n) := fun _ => rfl

theorem shortWriteReq (a n : Byte) (p : List Byte) : Statement (.shortWriteReq a n p) := fun h => by
  have hl : p.length = n.toNat := by simpa [Instr.wf] using h
  simp [encode, shortWriteFrame, closeFrame, size, Instr.port, hl]

theorem shortReadResp (b : Byte) : Statement (.shortReadResp b) := fun _ => rfl

theorem shortWriteAck (k : Byte) : Statement (.shortWriteAck k) := fun _ => rfl

end Sys2Proof.Laws.EncodedLength
end

