-- ==== Sys2Proof/Tests/Slice0.lean ====
section
/-!
SUPPORT. Checks of the model against what the spec works out (95_test_vectors.md and the tables of 30_encoding.md), and, for every
statement with hypotheses, a witness that meets them.
-/
namespace Sys2Proof.Tests

open Sys2Proof Sys2Proof.Machine

/-! ## Helpers -/

/-- A field of the state that an outcome carries. -/
def look {α : Type} (f : State → α) : Out → Option α
  | .next t => some (f t)
  | .fault _ => none
  | .refused _ => none

/-- The fault that an outcome is. -/
def faulted : Out → Option Fault
  | .next _ => none
  | .fault r => some r
  | .refused _ => none

/-- The refusal that an outcome is. -/
def refusedAs : Out → Option Refusal
  | .next _ => none
  | .fault _ => none
  | .refused r => some r

/-- After reset, with bytes in PBUF from index 0. -/
def holding (p : List Byte) : State := { State.reset with pbuf := Memory.writeBytes [] 0 p }

/-- A state with its next move given. -/
def about (m : Move) (s : State) : State := { s with agenda := [m] }

/-- Sending the request 81 01 02 7B of an SREAD, k bytes sent. -/
def sending (k : Nat) : State :=
  { State.reset with
    busy := true, phase := .tx, xop := .sread, xlen := 2, txseq := [0x81, 0x01, 0x02, 0x7B], txchk := 0x7B, txidx := k }

/-- Sending the request 01 27 01 5A 7C of an SWRITE, k bytes sent. -/
def sendingWrite (k : Nat) : State :=
  { State.reset with
    busy := true, phase := .tx, xop := .swrite, xlen := 1, txseq := [0x01, 0x27, 0x01, 0x5A, 0x7C], txchk := 0x7C
    txidx := k, pbuf := [(0, 0x5A)] }

/-- Awaiting the response of operation x, with bytes queued. -/
def awaiting (x : ExchangeOp) (n : Byte) (f : Nibble) (q : List Byte) : State :=
  { State.reset with
    busy := true, phase := .rx, xop := x, xlen := n, xfmt := f, txseq := [0x81, 0x01, 0x02, 0x7B], txidx := 4, txchk := 0x7B
    rxq := q }

/-- Awaiting the trailing byte of a response whose payload is p. -/
def judging (x : ExchangeOp) (f : Nibble) (p : List Byte) (q : List Byte) : State :=
  { awaiting x (BitVec.ofNat 8 p.length) f q with
    rxidx := p.length, acc := BitVec.ofNat 8 (byteSum p), pbuf := Memory.writeBytes [] 0 p }

/-- Awaiting the ack of the request 01 27 01 5A 7C. -/
def acking (q : List Byte) : State :=
  { sendingWrite 5 with phase := .rx, rxq := q }

/-! ## WellFormed: the ill-formed term that its one check refuses (30_encoding.md R77) -/

theorem test_wf_refuses_short_payload : (Instr.shortWriteReq 0x27 2 [0x5A]).wf = false := by decide

theorem test_wf_refuses_long_payload : (Instr.shortWriteReq 0x27 0 [0x5A]).wf = false := by decide

theorem test_wf_accepts : (Instr.shortWriteReq 0x27 1 [0x5A]).wf = true ∧ (Instr.shortWriteReq 0x27 0 []).wf = true := by decide

/-! ## Decoding: every row's word, written out from the tables of R70 to R73 and R75 to R78. Command words stand as their four
bytes from the lowest address up: OP and FMT, ADDR, LEN, reserved. -/

theorem test_decode_sread : decode .command [0xF1, 0x01, 0x02, 0x00] = .ok (.sread 15 0x01 0x02) := by decide

theorem test_decode_swrite : decode .command [0x02, 0x10, 0x02, 0xAB] = .ok (.swrite 0 0x10 0x02) := by decide

theorem test_decode_decode_rows :
    decode .command [0x13, 0xF0, 0x00, 0x00] = .ok (.decodeF1 0xF0 0x00)
    ∧ decode .command [0x23, 0xF1, 0x01, 0x00] = .ok (.decodeF2 0xF1 0x01)
    ∧ decode .command [0x33, 0xF2, 0x02, 0x00] = .ok (.decodeF3 0xF2 0x02)
    ∧ decode .command [0x43, 0xF3, 0x03, 0x00] = .ok (.decodeF4 0xF3 0x03)
    ∧ decode .command [0x53, 0xF4, 0x04, 0x00] = .ok (.decodeF5 0xF4 0x04)
    ∧ decode .command [0x63, 0xF5, 0x05, 0x00] = .ok (.decodeF6 0xF5 0x05)
    ∧ decode .command [0x73, 0xF6, 0x06, 0x00] = .ok (.decodeF7 0xF6 0x06)
    ∧ decode .command [0x83, 0xF7, 0x07, 0x00] = .ok (.decodeF8 0xF7 0x07)
    ∧ decode .command [0x93, 0xF8, 0x08, 0x00] = .ok (.decodeF2b 0xF8 0x08)
    ∧ decode .command [0xA3, 0xF9, 0x09, 0x00] = .ok (.decodeF3b 0xF9 0x09)
    ∧ decode .command [0xB3, 0xFA, 0x0A, 0x00] = .ok (.decodeShsel 0xFA 0x0A)
    ∧ decode .command [0xC3, 0xFB, 0x0B, 0x00] = .ok (.decodeShlbl 0xFB 0x0B)
    ∧ decode .command [0xD3, 0xFC, 0x0C, 0x00] = .ok (.decodeU8 0xFC 0x0C) := by decide

theorem test_decode_rdch_rows :
    decode .command [0x14, 0xF0, 0x00, 0x00] = .ok (.rdchF1 0xF0 0x00)
    ∧ decode .command [0x24, 0xF1, 0x01, 0x00] = .ok (.rdchF2 0xF1 0x01)
    ∧ decode .command [0x34, 0xF2, 0x02, 0x00] = .ok (.rdchF3 0xF2 0x02)
    ∧ decode .command [0x44, 0xF3, 0x03, 0x00] = .ok (.rdchF4 0xF3 0x03)
    ∧ decode .command [0x54, 0xF4, 0x04, 0x00] = .ok (.rdchF5 0xF4 0x04)
    ∧ decode .command [0x64, 0xF5, 0x05, 0x00] = .ok (.rdchF6 0xF5 0x05)
    ∧ decode .command [0x74, 0xF6, 0x06, 0x00] = .ok (.rdchF7 0xF6 0x06)
    ∧ decode .command [0x84, 0xF7, 0x07, 0x00] = .ok (.rdchF8 0xF7 0x07)
    ∧ decode .command [0x94, 0xF8, 0x08, 0x00] = .ok (.rdchF2b 0xF8 0x08)
    ∧ decode .command [0xA4, 0xF9, 0x09, 0x00] = .ok (.rdchF3b 0xF9 0x09)
    ∧ decode .command [0xB4, 0xFA, 0x0A, 0x00] = .ok (.rdchShsel 0xFA 0x0A)
    ∧ decode .command [0xC4, 0xFB, 0x0B, 0x00] = .ok (.rdchShlbl 0xFB 0x0B)
    ∧ decode .command [0xD4, 0xFC, 0x0C, 0x00] = .ok (.rdchU8 0xFC 0x0C) := by decide

theorem test_decode_short_read_req : decode .request [0x81, 0xFF, 0xFF, 0x80] = .ok (.shortReadReq 0xFF 0xFF) := by decide

theorem test_decode_short_write_req :
    decode .request [0x01, 0x10, 0x02, 0x12, 0x34, 0xA6] = .ok (.shortWriteReq 0x10 0x02 [0x12, 0x34]) := by decide

theorem test_decode_response_bytes :
    decode .readResponse [0x9B] = .ok (.shortReadResp 0x9B) ∧ decode .writeAck [0x7C] = .ok (.shortWriteAck 0x7C) := by decide

/-- Reserved operations and formats (R74), and frames that break R75 and R77. -/
theorem test_decode_rejects :
    decode .command [0x00, 0, 0, 0] = .error .illegalOp ∧ decode .command [0x05, 0, 0, 0] = .error .illegalOp
    ∧ decode .command [0x0F, 0, 0, 0] = .error .illegalOp ∧ decode .command [0x03, 0, 0, 0] = .error .illegalFmt
    ∧ decode .command [0xE3, 0, 0, 0] = .error .illegalFmt ∧ decode .command [0xF4, 0, 0, 0] = .error .illegalFmt
    ∧ decode .command [0x01, 0, 0] = .error .badLength ∧ decode .request [0x81, 0x01, 0x02, 0x7C] = .error .badChecksum
    ∧ decode .request [0x01, 0x27, 0x02, 0x5A, 0x7C] = .error .badLength
    ∧ decode .request [0x82, 0x01, 0x02, 0x7A] = .error .badCommandCode := by decide

/-- The opcode table's words. -/
theorem test_table_words :
    decodeTableWord 32 0x00000001 = some (.sread 0 0 0) ∧ decodeTableWord 8 0x02 = some (.swrite 0 0 0)
    ∧ decodeTableWord 8 0x13 = some (.decodeF1 0 0) ∧ decodeTableWord 8 0xD4 = some (.rdchU8 0 0)
    ∧ decodeTableWord 8 0x81 = some (.shortReadReq 0 0) := by decide

/-- A placed command word runs at the next step: SREAD @ 00, n = 0 sends 81 00 00 7E. -/
theorem test_placed_command :
    look (fun t => (t.txseq, t.phase, t.cmd)) (step (State.reset.withFetchWord 32 1)) =
      some ([0x81, 0x00, 0x00, 0x7E], .tx, 1) := by decide

/-- A placed request frame runs at the next step: its first byte is sent. -/
theorem test_placed_request :
    look (fun t => (t.txs, t.txidx)) (step (State.reset.withFetchWord 8 0x81)) = some ([0x81], 1) := by decide

/-! ## Commands (95_test_vectors.md sections 2.2 to 2.6), one step of the host's store each -/

/-- Section 2.2, row 1: the request and CHKINFO's TXCHK. -/
theorem test_sread_accept :
    look (fun t => (t.txseq, statusWord t, chkinfoWord t)) (step (about (.hostWrite 0 4 0x00020101) State.reset)) =
      some ([0x81, 0x01, 0x02, 0x7B], 0x001, 0x0000007B) := by decide

/-- Section 2.2, the row with EOSF = 1. -/
theorem test_sread_after_eos :
    look (fun t => (t.txs, statusWord t))
      (step (about (.hostWrite 0 4 0x00020101) { State.reset with eosf := true })) = some ([], 0x122) := by decide

/-- Section 2.3, rows 5 and 7. -/
theorem test_swrite_accept :
    look (fun t => (t.txseq, statusWord t)) (step (about (.hostWrite 0 4 0x00021002) (holding [0x12, 0x34]))) =
      some ([0x01, 0x10, 0x02, 0x12, 0x34, 0xA6], 0x001) := by decide

theorem test_swrite_unwritten :
    faulted (step (about (.hostWrite 0 4 0x00012702) State.reset)) = some .unwrittenPayload := by decide

/-! Section 2.4 and section 1 (S5), P2: the decoded values, through a whole DECODE. -/

theorem test_decode_value_F1 :
    look (fun t => t.result.toInt) (exec (.decodeF1 0 0) (holding [0xFF, 0x07])) = some (10235)
    ∧ look (fun t => t.result.toInt) (exec (.decodeF1 0 0) (holding [0x64, 0x00])) = some (500)
    ∧ look (fun t => t.result.toInt) (exec (.decodeF1 0 0) (holding [0x00, 0x08])) = some (0) := by decide

theorem test_decode_value_F2 :
    look (fun t => t.result.toInt) (exec (.decodeF2 0 0) (holding [0xD3, 0x04, 0x00])) = some (-1230)
    ∧ look (fun t => t.result.toInt) (exec (.decodeF2 0 0) (holding [0x09, 0x00, 0x00])) = some (0)
    ∧ look (fun t => t.result.toInt) (exec (.decodeF2 0 0) (holding [0xF6, 0xFF, 0xFF])) = some (0)
    ∧ look (fun t => t.result.toInt) (exec (.decodeF2 0 0) (holding [0x00, 0x00, 0x80])) = some (8388600) := by decide

theorem test_decode_value_F3 :
    look (fun t => t.result.toInt) (exec (.decodeF3 0 0) (holding [0xFE, 0xFF, 0xFF])) = some (1)
    ∧ look (fun t => t.result.toInt) (exec (.decodeF3 0 0) (holding [0xFF, 0xFF, 0x7F])) = some (-8388607)
    ∧ look (fun t => t.result.toInt) (exec (.decodeF3 0 0) (holding [0x17, 0xFC, 0xFF])) = some (1000)
    ∧ look (fun t => t.result.toInt) (exec (.decodeF3 0 0) (holding [0xE8, 0x03, 0x00])) = some (-1000) := by decide

theorem test_decode_value_F4 :
    look (fun t => t.result.toInt) (exec (.decodeF4 0 0) (holding [0x80, 0x00, 0x00, 0x00])) = some (-1)
    ∧ look (fun t => t.result.toInt) (exec (.decodeF4 0 0) (holding [0x80, 0xFF, 0xFF, 0xFF])) = some (0)
    ∧ look (fun t => t.result.toInt) (exec (.decodeF4 0 0) (holding [0x7F, 0xFF, 0xFF, 0xFF])) = some (1)
    ∧ look (fun t => t.result.toInt) (exec (.decodeF4 0 0) (holding [0xFF, 0x82, 0xFF, 0xFF])) = some (250) := by decide

theorem test_decode_value_F5 :
    look (fun t => t.result.toInt) (exec (.decodeF5 0 0) (holding [0x01, 0x00, 0x00, 0x00])) = some (-1)
    ∧ look (fun t => t.result.toInt) (exec (.decodeF5 0 0) (holding [0x00, 0x00, 0x00, 0x80])) = some (2147483647)
    ∧ look (fun t => t.result.toInt) (exec (.decodeF5 0 0) (holding [0xEF, 0xD8, 0xFF, 0xFF])) = some (10000) := by decide

theorem test_decode_value_F6 :
    look (fun t => t.result.toInt) (exec (.decodeF6 0 0) (holding [0x64])) = some (10000)
    ∧ look (fun t => t.result.toInt) (exec (.decodeF6 0 0) (holding [0xFF])) = some (25500) := by decide

theorem test_decode_value_F7 :
    look (fun t => t.result.toInt) (exec (.decodeF7 0 0) (holding [0x00, 0x80])) = some (-32768)
    ∧ look (fun t => t.result.toInt) (exec (.decodeF7 0 0) (holding [0xFF, 0x7F])) = some (32767)
    ∧ look (fun t => t.result.toInt) (exec (.decodeF7 0 0) (holding [0x7F, 0xFF])) = some (-129) := by decide

theorem test_decode_value_F8 :
    look (fun t => t.result.toInt) (exec (.decodeF8 0 0) (holding [0x80])) = some (-1280)
    ∧ look (fun t => t.result.toInt) (exec (.decodeF8 0 0) (holding [0x7F])) = some (1270)
    ∧ look (fun t => t.result.toInt) (exec (.decodeF8 0 0) (holding [0xF6])) = some (-100) := by decide

theorem test_decode_value_F2b :
    look (fun t => t.result.toInt) (exec (.decodeF2b 0 0) (holding [0xD3, 0x04, 0x00])) = some (-123000)
    ∧ look (fun t => t.result.toInt) (exec (.decodeF2b 0 0) (holding [0x00, 0x00, 0x80])) = some (838860000) := by decide

theorem test_decode_value_F3b :
    look (fun t => t.result.toInt) (exec (.decodeF3b 0 0) (holding [0xD3, 0x04, 0x00])) = some (-123500)
    ∧ look (fun t => t.result.toInt) (exec (.decodeF3b 0 0) (holding [0xFF, 0xFF, 0x7F])) = some (-838860700) := by decide

theorem test_decode_value_Shsel :
    look (fun t => t.result.toInt) (exec (.decodeShsel 0 0) (holding [0x00, 0x10, 0x00])) = some (2)
    ∧ look (fun t => t.result.toInt) (exec (.decodeShsel 0 0) (holding [0xEF, 0xEF, 0xEF])) = some (0)
    ∧ look (fun t => t.result.toInt) (exec (.decodeShsel 0 0) (holding [0xFF, 0x00, 0x00])) = some (1)
    ∧ look (fun t => t.result.toInt) (exec (.decodeShsel 0 0) (holding [0x00, 0x00, 0x10])) = some (4) := by decide

theorem test_decode_value_U8 :
    look (fun t => t.result.toInt) (exec (.decodeU8 0 0) (holding [0x2A])) = some (42)
    ∧ look (fun t => t.result.toInt) (exec (.decodeU8 0 0) (holding [0xFF])) = some (255) := by decide

/-- SHLBL packs the three OPEN tests (R155): the same bytes give the sum of section 2.4's SHLBL row. -/
theorem test_decode_value_Shlbl :
    look (fun t => t.result) (exec (.decodeShlbl 0 0) (holding [1, 2, 3])) =
      some (BitVec.ofInt 32 (((Config.labelTest 1).toNat + (Config.labelTest 2).toNat * 2
        + (Config.labelTest 3).toNat * 4 : Nat) : Int)) := by rfl

/-- Section 2.5: EOSF does not stop DECODE, reserved bits 31:24 are dropped, an unwritten byte faults. -/
theorem test_decode_corners :
    look (fun t => (statusWord t, t.result)) (step (about (.hostWrite 0 4 0x00000083) { holding [0xF6] with eosf := true })) =
      some (0x106, 0xFFFFFF9C)
    ∧ look (fun t => (statusWord t, t.cmd)) (step (about (.hostWrite 0 4 0xAB000083) (holding [0x00]))) =
      some (0x006, 0x00000083)
    ∧ faulted (step (about (.hostWrite 0 4 0x00000013) (holding [0x64]))) = some .unwrittenPayload := by decide

/-- Section 2.5: illegal words complete at once. -/
theorem test_illegal_words :
    look statusWord (step (about (.hostWrite 0 4 0x00000003) State.reset)) = some 0x042
    ∧ look statusWord (step (about (.hostWrite 0 4 0x000000E3) State.reset)) = some 0x042
    ∧ look statusWord (step (about (.hostWrite 0 4 0x000001F4) State.reset)) = some 0x042
    ∧ look statusWord (step (about (.hostWrite 0 4 0x00000000) State.reset)) = some 0x032
    ∧ look statusWord (step (about (.hostWrite 0 4 0x0000000F) State.reset)) = some 0x032 := by decide

/-- Section 2.6 and the checksums of section 2.1: the requests that RDCH sends. -/
theorem test_rdch_requests :
    look (fun t => t.txseq) (exec (.rdchF1 0x01 0xFF) State.reset) = some [0x81, 0x01, 0x02, 0x7B]
    ∧ look (fun t => t.txseq) (exec (.rdchF8 0x30 0x00) State.reset) = some [0x81, 0x30, 0x01, 0x4D]
    ∧ look (fun t => t.txseq) (exec (.rdchShsel 0xF6 0x00) State.reset) = some [0x81, 0xF6, 0x03, 0x85]
    ∧ look (fun t => t.txseq) (exec (.rdchU8 0xF7 0x00) State.reset) = some [0x81, 0xF7, 0x01, 0x86]
    ∧ look (fun t => t.txseq) (exec (.rdchF3 0x05 0x00) State.reset) = some [0x81, 0x05, 0x03, 0x76]
    ∧ look (fun t => t.txseq) (exec (.rdchF6 0x40 0x00) State.reset) = some [0x81, 0x40, 0x01, 0x3D] := by decide

/-- 41_value_decoder.md R140: the length byte that each of the other RDCH rows asks for. -/
theorem test_rdch_lengths :
    look (fun t => (t.xlen, t.txseq.getD 2 0, t.xfmt)) (exec (.rdchF2 0x05 0) State.reset) = some (3, 3, 2)
    ∧ look (fun t => (t.xlen, t.txseq.getD 2 0, t.xfmt)) (exec (.rdchF4 0x05 0) State.reset) = some (4, 4, 4)
    ∧ look (fun t => (t.xlen, t.txseq.getD 2 0, t.xfmt)) (exec (.rdchF5 0x05 0) State.reset) = some (4, 4, 5)
    ∧ look (fun t => (t.xlen, t.txseq.getD 2 0, t.xfmt)) (exec (.rdchF7 0x05 0) State.reset) = some (2, 2, 7)
    ∧ look (fun t => (t.xlen, t.txseq.getD 2 0, t.xfmt)) (exec (.rdchF2b 0x05 0) State.reset) = some (3, 3, 9)
    ∧ look (fun t => (t.xlen, t.txseq.getD 2 0, t.xfmt)) (exec (.rdchF3b 0x05 0) State.reset) = some (3, 3, 10)
    ∧ look (fun t => (t.xlen, t.txseq.getD 2 0, t.xfmt)) (exec (.rdchShlbl 0x05 0) State.reset) = some (3, 3, 12) := by decide

/-! ## Engine steps -/

/-- Section 2.2: the request's first byte, and the turn to RX after its last. -/
theorem test_short_read_req_bytes :
    look (fun t => (t.txs, t.txidx, t.phase)) (exec (.shortReadReq 0x01 0x02) (sending 0)) = some ([0x81], 1, .tx)
    ∧ look (fun t => (t.txs, t.txidx, t.phase)) (exec (.shortReadReq 0x01 0x02) (sending 3)) = some ([0x7B], 4, .rx) := by decide

/-- Section 2.3: the same of a short-write request. -/
theorem test_short_write_req_bytes :
    look (fun t => (t.txs, t.txidx, t.phase)) (exec (.shortWriteReq 0x27 0x01 [0x5A]) (sendingWrite 3)) = some ([0x5A], 4, .tx)
    ∧ look (fun t => (t.txs, t.txidx, t.phase)) (exec (.shortWriteReq 0x27 0x01 [0x5A]) (sendingWrite 4)) =
      some ([0x7C], 5, .rx) := by decide

/-- Section 2.2: a payload byte, then the good and the bad trailing byte of 64 00. -/
theorem test_short_read_resp_payload :
    look (fun t => (t.pbuf, t.acc, t.rxidx, t.rxq)) (exec (.shortReadResp 0x64) (awaiting .sread 2 0 [0x64, 0x00])) =
      some ([(0, 0x64)], 0x64, 1, [0x00]) := by decide

theorem test_short_read_resp_trailing :
    look (fun t => (statusWord t, chkinfoWord t)) (exec (.shortReadResp 0x9B) (judging .sread 0 [0x64, 0x00] [0x9B, 0x55])) =
      some (0x006, 0x00FF9B7B)
    ∧ look (fun t => (statusWord t, chkinfoWord t)) (exec (.shortReadResp 0x9A) (judging .sread 0 [0x64, 0x00] [0x9A])) =
      some (0x012, 0x00FE9A7B) := by decide

/-- Section 2.6: RDCH's completion. -/
theorem test_short_read_resp_of_rdch :
    look (fun t => (statusWord t, t.result)) (exec (.shortReadResp 0x9B) (judging .rdch 1 [0x64, 0x00] [0x9B])) =
      some (0x006, 0x000001F4)
    ∧ look (fun t => (statusWord t, t.result)) (exec (.shortReadResp 0xEF) (judging .rdch 11 [0x00, 0x10, 0x00] [0xEF])) =
      some (0x006, 0x00000002)
    ∧ look (fun t => (statusWord t, t.result)) (exec (.shortReadResp 0x15) (judging .rdch 3 [0xE8, 0x03, 0x00] [0x15])) =
      some (0x012, 0) := by decide

/-- Section 2.3: the ack is compared with the request's checksum byte, and 0xFF is not special. -/
theorem test_short_write_ack :
    look (fun t => (statusWord t, chkinfoWord t)) (exec (.shortWriteAck 0x7C) (acking [0x7C])) = some (0x006, 0x00007C7C)
    ∧ look (fun t => (statusWord t, chkinfoWord t)) (exec (.shortWriteAck 0xFF) (acking [0xFF])) = some (0x012, 0x0000FF7C) := by
  decide

/-- Section 2.2, row 5: the end of the stream inside a response. -/
theorem test_end_of_stream :
    look (fun t => (statusWord t, chkinfoWord t, t.result))
      (step (about .engine { awaiting .sread 2 0 [] with rxend := true, rxidx := 1, acc := 0x64, pbuf := [(0, 0x64)] })) =
      some (0x122, 0x0000007B, 0) := by decide

/-- Section 2.2, row 6: an instrument that stays silent. -/
theorem test_silence : look statusWord (step (about .engine (awaiting .sread 2 0 []))) = some 0x001 := by decide

/-! ## The window and the hazards (section 2.7) -/

/-- 60_exceptions.md R200 and the STATUS table of 95_test_vectors.md, and R43: a 1-byte load while idle. -/
theorem test_loads :
    look (fun t => t.hostIn) (step (about (.hostRead 0x004 4) { State.reset with done := true, err := .chksum })) = some [0x012]
    ∧ look (fun t => t.hostIn) (step (about (.hostRead 0x101 1) (holding [0x64, 0xFF]))) = some [0x000000FF] := by decide

theorem test_busy_stores :
    look (fun t => (statusWord t, t.cmd)) (step (about (.hostWrite 0 4 0x00000113) (sending 0))) = some (0x201, 0)
    ∧ look (fun t => (statusWord t, t.pbuf)) (step (about (.hostWrite 0x100 1 0x00) (sending 0))) = some (0x201, []) := by decide

theorem test_status_stores :
    look statusWord (step (about (.hostWrite 0x004 4 0x00000200) { State.reset with done := true, ok := true, ovr := true })) =
      some 0x006
    ∧ look statusWord (step (about (.hostWrite 0x004 4 0x00000007) { State.reset with done := true, ok := true, ovr := true })) =
      some 0x206 := by decide

theorem test_window :
    look (fun t => t.hostIn) (step (about (.hostRead 0x010 4) State.reset)) = some [0]
    ∧ look (fun t => (t.result, statusWord t)) (step (about (.hostWrite 0x008 4 0x12345678) State.reset)) = some (0, 0)
    ∧ refusedAs (step (about (.hostRead 0x004 1) State.reset)) = some (.unsupportedAccess 0x004 1)
    ∧ refusedAs (step (about (.hostRead 0x102 4) State.reset)) = some (.unsupportedAccess 0x102 4)
    ∧ look (fun t => t.hostIn) (step (about (.hostRead 0x100 4) (holding [0x7F, 0xFF, 0xFF, 0xFF]))) = some [0xFFFFFF7F] := by decide

theorem test_reset_while_busy :
    look (fun t => (statusWord t, t.phase, t.txs, t.rxq)) (step (about .reset { sending 2 with txs := [0x81, 0x01], rxq := [7] })) =
      some (0, .idle, [0x81, 0x01], [7]) := by decide

/-! ## Witnesses: for each statement with hypotheses, a state and operands that meet all of them. Where a statement has several
clauses, each clause has one, at the ends of its range where it has a range. -/

theorem witness_DecodeOfEncode : (Instr.shortWriteReq 0x27 1 [0x5A]).wf = true := by decide

theorem witness_CommandWordOfDecode : decode .command (wordBytes 0xFF0201F1) = .ok (.sread 15 0x01 0x02) := by decide

theorem witness_RequestFrameOfDecode : decode .request [0x01, 0x27, 0x00, 0xD7] = .ok (.shortWriteReq 0x27 0 []) := by decide

/-- OP 0, 5 and 15; FMT 0 and 14 under DECODE, 15 under RDCH; and the legal neighbours 4 and 13. -/
theorem witness_IllegalCommandWords :
    decode .command (wordBytes 0x00) = .error .illegalOp ∧ decode .command (wordBytes 0x05) = .error .illegalOp
    ∧ decode .command (wordBytes 0x0F) = .error .illegalOp ∧ decode .command (wordBytes 0x03) = .error .illegalFmt
    ∧ decode .command (wordBytes 0xE3) = .error .illegalFmt ∧ decode .command (wordBytes 0xF4) = .error .illegalFmt
    ∧ decode .command (wordBytes 0xD4) = .ok (.rdchU8 0 0) := by decide

/-- The empty sequence, and the short-read request of the rule's example. -/
theorem witness_FrameSumLaw :
    byteSum ([] ++ [0xFF]) % 256 = 0xFF ∧ byteSum ([0x81, 0x01, 0x02] ++ [0x7B]) % 256 = 0xFF
    ∧ decode .request [0x81, 0x01, 0x02, 0x7B] = .ok (.shortReadReq 0x01 0x02) := by decide

theorem witness_StepRunsDecodedCommand :
    nextMove (about (.hostWrite 0x000 4 0x00000114) State.reset) = .hostWrite 0x000 4 0x00000114
    ∧ decode .command (wordBytes 0x00000114) = .ok (.rdchF1 0x01 0x00) := by decide

/-- The three clauses: TX, RX of a short read, RX of a short write. -/
theorem witness_StepRunsDecodedFrame :
    (nextMove (about .engine (sending 3)) = .engine ∧ (about .engine (sending 3)).phase = .tx
      ∧ decode .request (about .engine (sending 3)).txseq = .ok (.shortReadReq 0x01 0x02))
    ∧ (nextMove (about .engine (awaiting .rdch 2 1 [0x64])) = .engine ∧ (awaiting .rdch 2 1 [0x64]).phase = .rx
      ∧ (awaiting .rdch 2 1 [0x64]).rxq = 0x64 :: [] ∧ (awaiting .rdch 2 1 [0x64]).xop ≠ .swrite)
    ∧ (nextMove (about .engine (acking [0x7C])) = .engine ∧ (acking [0x7C]).phase = .rx ∧ (acking [0x7C]).rxq = 0x7C :: []
      ∧ (acking [0x7C]).xop = .swrite) := by decide

/-- SreadStartsExchange, RdchStartsExchange. -/
theorem witness_idle_open : State.reset.busy = false ∧ State.reset.eosf = false := by decide

/-- SwriteStartsExchange, with one payload byte and with none. -/
theorem witness_SwriteStartsExchange :
    ((holding [0x5A]).busy = false ∧ (holding [0x5A]).eosf = false ∧ [(0x5A : Byte)].length = (1 : Byte).toNat
      ∧ PbufHolds (holding [0x5A]).pbuf [0x5A])
    ∧ ([] : List Byte).length = (0 : Byte).toNat ∧ PbufHolds State.reset.pbuf [] := by
  unfold PbufHolds
  decide

/-- DecodeCompletesAtOnce, for the longest and the shortest payload. -/
theorem witness_DecodeCompletesAtOnce :
    ((holding [1, 2, 3, 4]).busy = false ∧ [(1 : Byte), 2, 3, 4].length = fmtlen .f5
      ∧ PbufHolds (holding [1, 2, 3, 4]).pbuf [1, 2, 3, 4])
    ∧ (holding [0xF6]).busy = false ∧ [(0xF6 : Byte)].length = fmtlen .f8 ∧ PbufHolds (holding [0xF6]).pbuf [0xF6] := by
  unfold PbufHolds
  decide

/-- IllegalCommandsComplete: both clauses, at OP 0, 5, 15 and at FMT 0, 14, 15. -/
theorem witness_IllegalCommandsComplete :
    (∀ w ∈ [(0x00 : Word), 0x05, 0x0F], nextMove (about (.hostWrite 0x000 4 w) State.reset) = .hostWrite 0x000 4 w
      ∧ (about (.hostWrite 0x000 4 w) State.reset).busy = false ∧ (w.toNat % 16 = 0 ∨ 5 ≤ w.toNat % 16))
    ∧ (∀ w ∈ [(0x03 : Word), 0xE3, 0xF4], nextMove (about (.hostWrite 0x000 4 w) State.reset) = .hostWrite 0x000 4 w
      ∧ (about (.hostWrite 0x000 4 w) State.reset).busy = false ∧ (w.toNat % 16 = 3 ∨ w.toNat % 16 = 4)
      ∧ (w.toNat / 16 % 16 = 0 ∨ 14 ≤ w.toNat / 16 % 16)) := by
  refine ⟨fun w hw => ⟨rfl, rfl, ?_⟩, fun w hw => ⟨rfl, rfl, ?_⟩⟩
  · simp only [List.mem_cons, List.not_mem_nil, or_false] at hw
    rcases hw with rfl | rfl | rfl <;> decide
  · simp only [List.mem_cons, List.not_mem_nil, or_false] at hw
    rcases hw with rfl | rfl | rfl <;> decide

theorem witness_TransportRefusedAfterEos :
    ({ State.reset with eosf := true } : State).busy = false ∧ ({ State.reset with eosf := true } : State).eosf = true := by decide

/-- UnwrittenPayloadFaults: PBUF[1] never written, the last byte that each clause reads. -/
theorem witness_UnwrittenPayloadFaults :
    (holding [0x64]).busy = false ∧ Memory.read (holding [0x64]).pbuf 1 = none ∧ (holding [0x64]).eosf = false
    ∧ 1 < (2 : Byte).toNat ∧ 1 < fmtlen .f1 := by decide

/-- WritesWhileBusy: the five clauses; PBUF stores and loads at both ends, register loads at both ends. -/
theorem witness_WritesWhileBusy :
    (sending 0).busy = true
    ∧ nextMove (about (.hostWrite 0x000 4 0x13) (sending 0)) = .hostWrite 0x000 4 0x13
    ∧ (∀ a ∈ [(0x100, 1), (0x1FF, 1), (0x100, 4), (0x1FC, 4)],
        nextMove (about (.hostWrite a.1 a.2 0) (sending 0)) = .hostWrite a.1 a.2 0
        ∧ 0x100 ≤ a.1 ∧ a.1 < 0x200 ∧ (a.2 = 1 ∨ a.2 = 4 ∧ a.1 % 4 = 0))
    ∧ nextMove (about (.hostWrite 0x004 4 0x200) (sending 0)) = .hostWrite 0x004 4 0x200
    ∧ (∀ off ∈ [0x000, 0x0FC], nextMove (about (.hostRead off 4) (sending 0)) = .hostRead off 4 ∧ off % 4 = 0 ∧ off < 0x100)
    ∧ (∀ k ∈ [0, 255], nextMove (about (.hostRead (0x100 + k) 1) { sending 0 with pbuf := [(0, 7), (255, 9)] }) =
          .hostRead (0x100 + k) 1
        ∧ k < 0x100 ∧ Memory.read [((0 : Nat), (7 : Byte)), (255, 9)] k = some (if k = 0 then 7 else 9)) := by decide

/-- The decoded-value statements: PBUF[0..3] hold F6 FF FF FF, idle, and the raw values. -/
theorem witness_decoded_values :
    (holding [0xF6, 0xFF, 0xFF, 0xFF]).busy = false ∧ PbufHolds (holding [0xF6, 0xFF, 0xFF, 0xFF]).pbuf [0xF6, 0xFF]
    ∧ PbufHolds (holding [0xF6, 0xFF, 0xFF, 0xFF]).pbuf [0xF6, 0xFF, 0xFF]
    ∧ PbufHolds (holding [0xF6, 0xFF, 0xFF, 0xFF]).pbuf [0xF6, 0xFF, 0xFF, 0xFF]
    ∧ PbufHolds (holding [0xF6, 0xFF, 0xFF, 0xFF]).pbuf [0xF6]
    ∧ 0xFFF6 = (0xF6 : Byte).toNat + 256 * (0xFF : Byte).toNat
    ∧ 0xFFFFF6 = (0xF6 : Byte).toNat + 256 * (0xFF : Byte).toNat + 65536 * (0xFF : Byte).toNat
    ∧ 0xFFFFFFF6 =
      (0xF6 : Byte).toNat + 256 * (0xFF : Byte).toNat + 65536 * (0xFF : Byte).toNat + 16777216 * (0xFF : Byte).toNat := by
  unfold PbufHolds
  decide

theorem witness_DecodeShuntBits :
    (holding [0x00, 0x10, 0x00]).busy = false ∧ [(0x00 : Byte), 0x10, 0x00].length = 3
    ∧ PbufHolds (holding [0x00, 0x10, 0x00]).pbuf [0x00, 0x10, 0x00] := by
  unfold PbufHolds
  decide

theorem witness_TruncatingDivision : 0 < 10 ∧ (-1235 : Int) < 0 := by decide

theorem witness_ResultRanges : [(0x00 : Byte), 0x00, 0x80].length = fmtlen .f3 := by decide

/-- SignByInversionRoundTrip: the largest value of each clause. -/
theorem witness_SignByInversionRoundTrip :
    (24, 0) ∈ [(24, 0), (32, 7), (32, 0)] ∧ (-8388607 : Int).natAbs ≤ 2 ^ (24 - 1 - 0) - 1
    ∧ (8388607 : Int).natAbs ≤ 2 ^ 23 - 1 ∧ (-16777215 : Int).natAbs ≤ 2 ^ 24 - 1
    ∧ (2147483647 : Int).natAbs ≤ 2 ^ 31 - 1 := by decide

/-- DecodeReadsPayloadOnly: two idle states that differ in EOSF and in PBUF[1]; DECODE.F8 answers on both. -/
theorem witness_DecodeReadsPayloadOnly :
    (holding [0xF6]).busy = false ∧ ({ holding [0xF6, 1] with eosf := true } : State).busy = false
    ∧ (∀ k, k < fmtlen .f8 → Memory.read (holding [0xF6]).pbuf k = Memory.read ({ holding [0xF6, 1] with eosf := true } : State).pbuf k)
    ∧ (look (fun t => t.done) (exec (Instr.decodeRow .f8 0 0) (holding [0xF6]))).isSome = true
    ∧ (look (fun t => t.done) (exec (Instr.decodeRow .f8 1 2) { holding [0xF6, 1] with eosf := true })).isSome = true := by decide

/-- ShortReadRequestSends, at the first and the last byte. -/
theorem witness_ShortReadRequestSends :
    ∀ k ∈ [0, 3], (sending k).phase = .tx ∧ (sending k).txseq = [0x81, 0x01, 0x02, chk8 (0x81 + (0x01 : Byte).toNat + (0x02 : Byte).toNat)]
      ∧ (sending k).txseq[(sending k).txidx]? = some (if k = 0 then 0x81 else 0x7B) := by decide

/-- ShortWriteRequestSends, at the first and the last byte. -/
theorem witness_ShortWriteRequestSends :
    ∀ k ∈ [0, 4], (sendingWrite k).phase = .tx ∧ [(0x5A : Byte)].length = (0x01 : Byte).toNat
      ∧ (sendingWrite k).txseq =
        0x01 :: 0x27 :: 0x01 :: [0x5A] ++ [chk8 (0x01 + (0x27 : Byte).toNat + (0x01 : Byte).toNat + byteSum [0x5A])]
      ∧ (sendingWrite k).txseq[(sendingWrite k).txidx]? = some (if k = 0 then 0x01 else 0x7C) := by decide

/-- TransmitStep, before the last byte and at it. -/
theorem witness_TransmitStep :
    ∀ k ∈ [2, 3], nextMove (about .engine (sending k)) = .engine ∧ (about .engine (sending k)).phase = .tx
      ∧ (about .engine (sending k)).txseq[(about .engine (sending k)).txidx]? = some (if k = 2 then 0x02 else 0x7B) := by decide

theorem witness_ResponsePayloadByte :
    (awaiting .sread 2 0 [0x64, 0x00]).phase = .rx ∧ (awaiting .sread 2 0 [0x64, 0x00]).xop ≠ .swrite
    ∧ (awaiting .sread 2 0 [0x64, 0x00]).rxq = 0x64 :: [0x00]
    ∧ (awaiting .sread 2 0 [0x64, 0x00]).rxidx < (awaiting .sread 2 0 [0x64, 0x00]).xlen.toNat := by decide

/-- ResponseTrailingByteOfSread: a good sum, a bad one, and a read of 0 bytes. -/
theorem witness_ResponseTrailingByteOfSread :
    ∀ c ∈ [([(0x64 : Byte), 0x00], (0x9B : Byte)), ([0x64, 0x00], 0x9A), ([], 0xFF)],
      (judging .sread 0 c.1 [c.2]).phase = .rx ∧ (judging .sread 0 c.1 [c.2]).xop = .sread
      ∧ (judging .sread 0 c.1 [c.2]).rxq = c.2 :: []
      ∧ (judging .sread 0 c.1 [c.2]).rxidx = (judging .sread 0 c.1 [c.2]).xlen.toNat := by decide

/-- ResponseTrailingByteOfRdch: a good sum and a bad one. -/
theorem witness_ResponseTrailingByteOfRdch :
    ∀ t ∈ [(0x9B : Byte), 0x9A],
      (judging .rdch 1 [0x64, 0x00] [t]).phase = .rx ∧ (judging .rdch 1 [0x64, 0x00] [t]).xop = .rdch
      ∧ (judging .rdch 1 [0x64, 0x00] [t]).rxq = t :: []
      ∧ (judging .rdch 1 [0x64, 0x00] [t]).rxidx = (judging .rdch 1 [0x64, 0x00] [t]).xlen.toNat
      ∧ (judging .rdch 1 [0x64, 0x00] [t]).xfmt = Format.f1.code ∧ [(0x64 : Byte), 0x00].length = fmtlen .f1
      ∧ PbufHolds (judging .rdch 1 [0x64, 0x00] [t]).pbuf [0x64, 0x00] := by
  unfold PbufHolds
  decide

/-- AckByte: the checksum byte, and another. -/
theorem witness_AckByte :
    ∀ k ∈ [(0x7C : Byte), 0xFF], (acking [k]).phase = .rx ∧ (acking [k]).xop = .swrite ∧ (acking [k]).rxq = k :: [] := by decide

theorem witness_EndOfStreamStep :
    nextMove (about .engine { awaiting .rdch 1 8 [] with rxend := true }) = .engine
    ∧ (awaiting .rdch 1 8 []).phase = .rx ∧ (awaiting .rdch 1 8 []).rxq = []
    ∧ ({ awaiting .rdch 1 8 [] with rxend := true } : State).rxend = true := by decide

/-- InstrumentMoves: a byte before and after the end of the stream, and the end itself. -/
theorem witness_InstrumentMoves :
    nextMove (about (.instrByte 7) State.reset) = .instrByte 7 ∧ State.reset.rxend = false
    ∧ nextMove (about (.instrByte 7) { State.reset with rxend := true }) = .instrByte 7
    ∧ nextMove (about .instrEnd State.reset) = .instrEnd := by decide

/-- SilentInstrumentHangs, under an engine move and under a host load. -/
theorem witness_SilentInstrumentHangs :
    ∀ m ∈ [Move.engine, .hostRead 0x004 4],
      (about m (awaiting .sread 2 0 [])).busy = true ∧ (about m (awaiting .sread 2 0 [])).phase = .rx
      ∧ (about m (awaiting .sread 2 0 [])).rxq = [] ∧ (about m (awaiting .sread 2 0 [])).rxend = false
      ∧ nextMove (about m (awaiting .sread 2 0 [])) = m ∧ m ≠ .instrEnd ∧ m ≠ .reset
      ∧ (look (fun t => t.busy) (step (about m (awaiting .sread 2 0 [])))).isSome = true := by decide

theorem witness_SilentInstrumentHangs_no_byte (b : Byte) : Move.engine ≠ .instrByte b := by simp

/-- ShortReadExchange: two payload bytes, and none. -/
theorem witness_ShortReadExchange :
    ({ State.reset with rxq := [0x64, 0x00, 0x9B, 0x55] } : State).busy = false
    ∧ ({ State.reset with rxq := [0x64, 0x00, 0x9B, 0x55] } : State).eosf = false
    ∧ [(0x64 : Byte), 0x00].length = (2 : Byte).toNat
    ∧ ({ State.reset with rxq := [0x64, 0x00, 0x9B, 0x55] } : State).rxq = [0x64, 0x00] ++ 0x9B :: [0x55]
    ∧ ([] : List Byte).length = (0 : Byte).toNat
    ∧ ({ State.reset with rxq := [0xFF] } : State).rxq = [] ++ 0xFF :: [] := by decide

/-- ShortReadCutShort: both clauses, with no byte and with as many as the payload has. -/
theorem witness_ShortReadCutShort :
    ∀ e ∈ [true, false], ∀ q ∈ [[], [(0x64 : Byte), 0x00]],
      ({ State.reset with rxq := q, rxend := e } : State).busy = false
      ∧ ({ State.reset with rxq := q, rxend := e } : State).eosf = false
      ∧ ({ State.reset with rxq := q, rxend := e } : State).rxq.length ≤ (2 : Byte).toNat := by decide

/-- ShortWriteExchange: its three clauses. -/
theorem witness_ShortWriteExchange :
    ∀ c ∈ [([(0x7C : Byte)], false), ([], true), ([], false)],
      ({ holding [0x5A] with rxq := c.1, rxend := c.2 } : State).busy = false
      ∧ ({ holding [0x5A] with rxq := c.1, rxend := c.2 } : State).eosf = false
      ∧ [(0x5A : Byte)].length = (1 : Byte).toNat ∧ PbufHolds (holding [0x5A]).pbuf [0x5A] := by
  unfold PbufHolds
  decide

theorem witness_RdchIsSreadThenDecode :
    ({ State.reset with rxq := [0x64, 0x00, 0x9B] } : State).busy = false
    ∧ ({ State.reset with rxq := [0x64, 0x00, 0x9B] } : State).eosf = false ∧ [(0x64 : Byte), 0x00].length = fmtlen .f1
    ∧ ({ State.reset with rxq := [0x64, 0x00, 0x9B] } : State).rxq = [0x64, 0x00] ++ 0x9B :: []
    ∧ (byteSum [0x64, 0x00] + (0x9B : Byte).toNat) % 256 = 0xFF := by decide

/-- RegisterLoads: the four registers, STATUS under each of the five codes of R200. -/
theorem witness_RegisterLoads :
    (∀ off ∈ [0x000, 0x008, 0x00C], nextMove (about (.hostRead off 4) State.reset) = .hostRead off 4)
    ∧ ∀ c ∈ [(ErrCode.none, 0), (.chksum, 1), (.eos, 2), (.illegalOp, 3), (.illegalFmt, 4)],
      (about (.hostRead 0x004 4) { State.reset with err := c.1 }).err = c.1
      ∧ nextMove (about (.hostRead 0x004 4) { State.reset with err := c.1 }) = .hostRead 0x004 4 := by decide

/-- ReservedRange: both clauses, at both ends. -/
theorem witness_ReservedRange :
    ∀ off ∈ [0x010, 0x0FC], 0x010 ≤ off ∧ off < 0x100 ∧ off % 4 = 0
      ∧ nextMove (about (.hostRead off 4) State.reset) = .hostRead off 4
      ∧ nextMove (about (.hostWrite off 4 1) State.reset) = .hostWrite off 4 1 := by decide

/-- StatusStore: with bit 9 and without. -/
theorem witness_StatusStore :
    ∀ v ∈ [(0x200 : Word), 0xFFFFFDFF], nextMove (about (.hostWrite 0x004 4 v) State.reset) = .hostWrite 0x004 4 v :=
  fun _ _ => rfl

theorem witness_ReadOnlyStores :
    nextMove (about (.hostWrite 0x008 4 1) State.reset) = .hostWrite 0x008 4 1
    ∧ nextMove (about (.hostWrite 0x00C 4 1) State.reset) = .hostWrite 0x00C 4 1 := by decide

/-- PbufAccess: the four clauses, at the first and the last word of PBUF and at its first and last byte. -/
theorem witness_PbufAccess :
    (∀ j ∈ [0, 63], j < 64
      ∧ nextMove (about (.hostWrite (0x100 + 4 * j) 4 1) State.reset) = .hostWrite (0x100 + 4 * j) 4 1
      ∧ (about (.hostWrite (0x100 + 4 * j) 4 1) State.reset).busy = false
      ∧ nextMove (about (.hostRead (0x100 + 4 * j) 4) State.reset) = .hostRead (0x100 + 4 * j) 4
      ∧ ∀ k, k < 4 → Memory.read (Memory.writeBytes (Memory.writeBytes [] 252 [5, 6, 7, 8]) 0 [5, 6, 7, 8]) (4 * j + k) =
          some (BitVec.ofNat 8 (5 + k)))
    ∧ ∀ k ∈ [0, 255], k < 256 ∧ nextMove (about (.hostWrite (0x100 + k) 1 1) State.reset) = .hostWrite (0x100 + k) 1 1
      ∧ (about (.hostWrite (0x100 + k) 1 1) State.reset).busy = false
      ∧ nextMove (about (.hostRead (0x100 + k) 1) { State.reset with pbuf := [(0, 7), (255, 9)] }) = .hostRead (0x100 + k) 1
      ∧ Memory.read [((0 : Nat), (7 : Byte)), (255, 9)] k = some (if k = 0 then 7 else 9) := by decide

/-- UnwrittenLoadFaults: a one-byte load at the top, and a word whose last byte alone is unwritten. -/
theorem witness_UnwrittenLoadFaults :
    (nextMove (about (.hostRead (0x100 + 255) 1) State.reset) = .hostRead (0x100 + 255) 1
      ∧ Memory.read State.reset.pbuf 255 = none)
    ∧ nextMove (about (.hostRead (0x100 + 0) 4) (holding [1, 2, 3])) = .hostRead (0x100 + 0) 4 ∧ 0 ≤ 3 ∧ 3 < 0 + 4
    ∧ Memory.read (holding [1, 2, 3]).pbuf 3 = none := by decide

/-- UnsupportedAccessRefused: at each end of the ranges, an access of each direction. -/
theorem witness_UnsupportedAccessRefused :
    ∀ a ∈ [(0x00C, 4), (0x00D, 4), (0x00C, 1), (0x010, 4), (0x0FC, 4), (0x0FF, 1), (0x100, 1), (0x1FC, 4), (0x1FF, 1), (0x1FF, 2)],
      a.1 < 0x200 ∧ nextMove (about (.hostRead a.1 a.2) State.reset) = .hostRead a.1 a.2
      ∧ nextMove (about (.hostWrite a.1 a.2 7) State.reset) = .hostWrite a.1 a.2 7 := by decide

/-- WindowAddresses: the first address past the window, and the first and the last in it, wherever BASE is. -/
theorem witness_WindowAddresses :
    Config.base + 0x200 ≤ Config.base + 0x200 ∧ Config.base + 0 = Config.base + 0 ∧ 0 < 0x200
    ∧ Config.base + 0x1FF = Config.base + 0x1FF ∧ 0x1FF < 0x200 := ⟨Nat.le_refl _, rfl, by decide, rfl, by decide⟩

/-- StepKeepsStatusInv: the invariant holds in TX and while a failure is reported, and each of the two steps on. -/
theorem witness_StepKeepsStatusInv :
    StatusInv (about .engine (sending 3))
    ∧ (look (fun t => t.phase) (step (about .engine (sending 3)))).isSome = true
    ∧ StatusInv { State.reset with done := true, err := .eos, eosf := true } :=
  ⟨⟨by decide, by decide, by decide, by decide, by decide, by decide⟩, by decide,
    ⟨by decide, by decide, by decide, by decide, by decide, by decide⟩⟩

/-- StepKeepsBlockInv, EngineLeavesTopByte: the invariant holds in TX, with the engine to move. -/
theorem witness_StepKeepsBlockInv :
    BlockInv (about .engine (sending 3)) ∧ nextMove (about .engine (sending 3)) = .engine
    ∧ (look (fun t => t.phase) (step (about .engine (sending 3)))).isSome = true := by
  refine ⟨⟨by decide, by decide, by decide, by decide, fun _ => ⟨.shortReadReq 0x01 0x02, by decide⟩, by decide, ?_, by decide, ?_,
    by decide, by decide⟩, by decide, by decide⟩
  · intro h
    exact absurd h (by decide)
  · intro _ h
    exact absurd h (by decide)

theorem witness_ResetMove : nextMove (about .reset (sending 2)) = .reset := by decide

/-- EosfSticky: the two clauses, each with a step that changes EOSF. -/
theorem witness_EosfSticky :
    look (fun t => t.eosf) (step (about .reset { State.reset with eosf := true })) = some false
    ∧ look (fun t => t.eosf) (step (about .engine { awaiting .sread 2 0 [] with rxend := true })) = some true := by decide

/-- OvrRules: the two clauses, each with a step that changes OVR. -/
theorem witness_OvrRules :
    look (fun t => t.ovr) (step (about (.hostWrite 0x1FF 1 0) (sending 0))) = some true
    ∧ look (fun t => t.ovr) (step (about (.hostWrite 0x004 4 0x200) { State.reset with ovr := true })) = some false
    ∧ look (fun t => t.ovr) (step (about .reset { State.reset with ovr := true })) = some false := by decide

/-- TransportDiscipline: a step that sends, one that takes, and one in which the instrument sends. -/
theorem witness_TransportDiscipline :
    look (fun t => t.txs) (step (about .engine (sending 0))) = some [0x81]
    ∧ look (fun t => t.rxq) (step (about .engine (awaiting .sread 2 0 [0x64, 0x00]))) = some [0x00]
    ∧ look (fun t => t.rxq) (step (about (.instrByte 7) State.reset)) = some [7] := by decide

/-- BusyShieldsExchange: a load and a store while BUSY that answer next states. -/
theorem witness_BusyShieldsExchange :
    ∀ m ∈ [Move.hostRead 0x004 4, .hostWrite 0x100 4 7], (about m (sending 1)).busy = true ∧ nextMove (about m (sending 1)) = m
      ∧ (look (fun t => t.busy) (step (about m (sending 1)))).isSome = true := by decide

end Sys2Proof.Tests
end

section
/-!
PROOFS. The statements about the block's state (10_state.md). Every whole-machine rule is one case split over `Effect`, the list of
what a step can do, with one lemma per effect that touches the fields the rule speaks of.
-/
namespace Sys2Proof.Machine

/-! ## Taking a move off -/

/-- Taking a move off changes the agenda and the tick and nothing of the block. -/
theorem popMove_eq (s : State) : ∃ ms k, popMove s = { s with agenda := ms, tick := k } := by
  unfold popMove
  split
  · next ms _ => exact ⟨ms, s.tick, rfl⟩
  · exact ⟨s.agenda, s.tick + 1, rfl⟩

/-! ## The frame of the transmit step -/

/-- The transmit step changes TXS and the engine's place in the exchange, and nothing else (R106). -/
theorem transmit_frame (s : State) : ∃ out i ph r a,
    transmit s = { s with txs := out, txidx := i, phase := ph, rxidx := r, acc := a } := by
  cases hb : s.txseq[s.txidx]? with
  | none => exact ⟨_, _, _, _, _, transmit_none s hb⟩
  | some b =>
    rw [transmit_some s b hb]
    split <;> exact ⟨_, _, _, _, _, rfl⟩

@[simp] theorem transmit_eosf (s : State) : (transmit s).eosf = s.eosf := by
  obtain ⟨_, _, _, _, _, heq⟩ := transmit_frame s
  rw [heq]

@[simp] theorem transmit_ovr (s : State) : (transmit s).ovr = s.ovr := by
  obtain ⟨_, _, _, _, _, heq⟩ := transmit_frame s
  rw [heq]

@[simp] theorem transmit_pbuf (s : State) : (transmit s).pbuf = s.pbuf := by
  obtain ⟨_, _, _, _, _, heq⟩ := transmit_frame s
  rw [heq]

/-! ## The invariants of R25 -/

theorem statusInv_reset : StatusInv State.reset where
  busy_clears h := nomatch h
  ok_done h := nomatch h
  failed_err h := nomatch h
  eos_eosf h := nomatch h
  tx_bound h := nomatch h
  rx_bound h := nomatch h

/-- A completion meets R25 whatever state it is made in: it sets every flag that R25 speaks of (R203). -/
theorem statusInv_complete (e : ErrCode) (v : Int) (s : State) : StatusInv (complete e v s) where
  busy_clears h := nomatch h
  ok_done h := ⟨rfl, of_decide_eq_true h⟩
  failed_err _ h := of_decide_eq_false h
  eos_eosf h := by simp only [complete_err] at h; simp [h]
  tx_bound h := nomatch h
  rx_bound h := nomatch h

/-- A started exchange meets R25 whatever state the command is accepted in: the accept step clears the flags (R111). -/
theorem statusInv_startExchange (x : ExchangeOp) (n : Byte) (f : Nibble) (frame : List Byte) (w : Word) (s : State)
    (hf : frame ≠ []) : StatusInv (startExchange x n f frame (acceptCommand w s)) where
  busy_clears _ := ⟨rfl, rfl, rfl⟩
  ok_done h := nomatch h
  failed_err h := nomatch h
  eos_eosf h := nomatch h
  tx_bound _ := List.length_pos_of_ne_nil hf
  rx_bound h := nomatch h

/-- The transmit step keeps R25: the byte after the last turns the engine round to RX. -/
theorem StatusInv.transmit {s : State} {b : Byte} (hs : StatusInv s) (hp : s.phase = .tx)
    (hb : s.txseq[s.txidx]? = some b) : StatusInv (transmit s) := by
  have hlt := hs.tx_bound hp
  rw [transmit_some s b hb]
  split
  · next hlast => exact { hs with tx_bound := fun h => (nomatch h), rx_bound := fun _ => hlast }
  · next hmore =>
    exact { hs with
      tx_bound := fun _ => show s.txidx + 1 < s.txseq.length by omega
      rx_bound := fun h => nomatch hp.symm.trans h }

theorem StatusInv.popMove {s : State} (hs : StatusInv s) : StatusInv (popMove s) := by
  obtain ⟨ms, k, heq⟩ := popMove_eq s
  rw [heq]
  exact { hs with }

/-! ## Exchanges that R111 starts -/

theorem LegalStart.decodes {x : ExchangeOp} {n : Byte} {f : Nibble} {frame : List Byte} (h : LegalStart x n f frame) :
    ∃ i, decode .request frame = .ok i := by
  cases h with
  | sread a => exact ⟨_, decodeRequest_shortReadFrame a n⟩
  | rdch a => exact ⟨_, decodeRequest_shortReadFrame a n⟩
  | swrite a _ _ p hp => exact ⟨_, decodeRequest_shortWriteFrame a n p hp⟩

theorem LegalStart.ne_nil {x : ExchangeOp} {n : Byte} {f : Nibble} {frame : List Byte} (h : LegalStart x n f frame) :
    frame ≠ [] := by
  cases h <;> simp [shortReadFrame_eq, shortWriteFrame_eq]

/-- The longest request frame is a short write of 255 bytes (R20). -/
theorem LegalStart.length_le {x : ExchangeOp} {n : Byte} {f : Nibble} {frame : List Byte}
    (h : LegalStart x n f frame) : frame.length ≤ 259 := by
  cases h with
  | sread a => simp [shortReadFrame_eq]
  | rdch a => simp [shortReadFrame_eq]
  | swrite a _ _ p hp =>
    have := n.isLt
    simp only [shortWriteFrame_eq, List.length_append, List.length_cons, List.length_nil]
    omega

theorem LegalStart.channel_format {n : Byte} {f : Nibble} {frame : List Byte} (h : LegalStart .rdch n f frame) :
    ∃ g, Format.ofCode f = some g ∧ n.toNat = fmtlen g := by
  cases h with
  | rdch _ _ g hn => exact ⟨g, Format.ofCode_code g, hn⟩

/-! ## The block's structural invariant -/

theorem blockInv_reset : BlockInv State.reset where
  busy_phase := by decide
  idle_zero _ := ⟨rfl, rfl, rfl⟩
  tx_zero h := nomatch h
  rx_sent h := nomatch h
  frame_legal h := absurd rfl h
  frame_check h := absurd rfl h
  payload_taken h := nomatch h
  ack_first h := nomatch h
  channel_format h := absurd rfl h
  cmd_reserved := by decide
  pbuf_wf := Memory.wf_reset

/-- A completion returns the engine to (IDLE, 0, 0) (R20); CMD and PBUF are as they were. -/
theorem blockInv_complete (e : ErrCode) (v : Int) (s : State) (hc : s.cmd.toNat < 2 ^ 24)
    (hw : Memory.wf s.pbuf = true) : BlockInv (complete e v s) where
  busy_phase := by simp
  idle_zero _ := ⟨rfl, rfl, rfl⟩
  tx_zero h := nomatch h
  rx_sent h := nomatch h
  frame_legal h := absurd rfl h
  frame_check h := absurd rfl h
  payload_taken h := nomatch h
  ack_first h := nomatch h
  channel_format h := absurd rfl h
  cmd_reserved := hc
  pbuf_wf := hw

theorem blockInv_startExchange {x : ExchangeOp} {n : Byte} {f : Nibble} {frame : List Byte} (s : State)
    (hl : LegalStart x n f frame) (hc : s.cmd.toNat < 2 ^ 24) (hw : Memory.wf s.pbuf = true) :
    BlockInv (startExchange x n f frame s) where
  busy_phase := by simp
  idle_zero h := nomatch h
  tx_zero _ := ⟨List.length_pos_of_ne_nil hl.ne_nil, rfl, rfl⟩
  rx_sent h := nomatch h
  frame_legal _ := hl.decodes
  frame_check _ := ⟨hl.length_le, by
    simp [List.getLastD_eq_getLast?, List.getLast?_eq_some_getLast hl.ne_nil]⟩
  payload_taken h := nomatch h
  ack_first h := nomatch h
  channel_format _ hx := by subst hx; exact hl.channel_format
  cmd_reserved := hc
  pbuf_wf := hw

/-- CMD takes the word's bits 23:0 only (R12). -/
theorem acceptCommand_cmd_lt (w : Word) (s : State) : (acceptCommand w s).cmd.toNat < 2 ^ 24 := by
  rw [acceptCommand_cmd_toNat]
  exact Nat.mod_lt _ (by decide)

theorem BlockInv.idle_of_not_busy {s : State} (hs : BlockInv s) (hb : s.busy = false) : s.phase = .idle := by
  by_contra hp
  simp [hs.busy_phase.mpr hp] at hb

/-- A host store to PBUF reaches it only while IDLE, where no payload has been taken. -/
theorem BlockInv.fill {s : State} (hs : BlockInv s) (hb : s.busy = false) {k : Nat} {bs : List Byte}
    (hk : k + bs.length ≤ 256) : BlockInv { s with pbuf := Memory.writeBytes s.pbuf k bs } :=
  { hs with
    payload_taken := fun h => nomatch (hs.idle_of_not_busy hb).symm.trans h
    pbuf_wf := Memory.wf_writeBytes bs s.pbuf k hk hs.pbuf_wf }

/-- The transmit step keeps the invariant: the turn to RX begins with no payload byte taken. -/
theorem BlockInv.transmit {s : State} {b : Byte} (hs : BlockInv s) (hp : s.phase = .tx)
    (hb : s.txseq[s.txidx]? = some b) : BlockInv (transmit s) := by
  obtain ⟨hlt, hrx, hacc⟩ := hs.tx_zero hp
  have hactive : s.phase ≠ .idle := by simp [hp]
  rw [transmit_some s b hb]
  split
  · next hlast =>
    exact { hs with
      busy_phase := by simp [hs.busy_phase, hp]
      idle_zero := fun h => nomatch h
      tx_zero := fun h => nomatch h
      rx_sent := fun _ => ⟨hlast, Nat.zero_le _⟩
      frame_legal := fun _ => hs.frame_legal hactive
      frame_check := fun _ => hs.frame_check hactive
      payload_taken := fun _ _ => ⟨[], rfl, fun k hk => absurd hk (Nat.not_lt_zero k), rfl⟩
      ack_first := fun _ _ => rfl
      channel_format := fun _ => hs.channel_format hactive }
  · next hmore =>
    exact { hs with
      idle_zero := fun h => absurd h hactive
      tx_zero := fun _ => ⟨show s.txidx + 1 < s.txseq.length by omega, hrx, hacc⟩
      rx_sent := fun h => nomatch hp.symm.trans h }

/-- The payload step keeps the invariant: the byte taken joins the payload that PBUF holds and the sum in ACC. -/
theorem BlockInv.payloadStep {s : State} (hs : BlockInv s) (b : Byte) (rest : List Byte) (hp : s.phase = .rx)
    (hx : s.xop ≠ .swrite) (hi : s.rxidx < s.xlen.toNat) : BlockInv (payloadStep b { s with rxq := rest }) := by
  obtain ⟨p, hl, hheld, hacc⟩ := hs.payload_taken hp hx
  have hlen := s.xlen.isLt
  have hsum : s.acc + b = BitVec.ofNat 8 (byteSum (p ++ [b])) := by
    simp [hacc, byteSum, BitVec.ofNat_add]
  exact { hs with
    idle_zero := fun h => nomatch hp.symm.trans h
    tx_zero := fun h => nomatch hp.symm.trans h
    rx_sent := fun _ => ⟨(hs.rx_sent hp).1, hi⟩
    payload_taken := fun _ _ => ⟨p ++ [b], by simp [hl], by simpa [← hl] using hheld.snoc, hsum⟩
    ack_first := fun _ h => absurd h hx
    pbuf_wf := Memory.wf_write s.pbuf s.rxidx b (by omega) hs.pbuf_wf }

theorem BlockInv.popMove {s : State} (hs : BlockInv s) : BlockInv (popMove s) := by
  obtain ⟨ms, k, heq⟩ := popMove_eq s
  rw [heq]
  exact { hs with }

/-! ## Every effect keeps the two invariants -/

theorem Effect.statusInv {s t : State} {m : Move} (h : Effect s m t) (hs : StatusInv s) : StatusInv t := by
  cases h with
  | nothing => exact hs
  | load => exact { hs with }
  | status => exact { hs with }
  | overrun => exact { hs with }
  | fill => exact { hs with }
  | finish => exact statusInv_complete _ _ _
  | start w x n f frame _ _ hl => exact statusInv_startExchange x n f frame w s hl.ne_nil
  | send b hp hb => exact hs.transmit hp hb
  | take => exact { hs with }
  | judge => exact statusInv_complete _ _ _
  | ack => exact statusInv_complete _ _ _
  | eos => exact statusInv_complete _ _ _
  | sent => exact { hs with }
  | close => exact { hs with }
  | reset => exact { statusInv_reset with }

theorem Effect.blockInv {s t : State} {m : Move} (h : Effect s m t) (hs : BlockInv s) : BlockInv t := by
  cases h with
  | nothing => exact hs
  | load => exact { hs with }
  | status => exact { hs with }
  | overrun => exact { hs with }
  | fill off size v hb ho => exact hs.fill hb ho.2
  | finish w e v => exact blockInv_complete e v _ (acceptCommand_cmd_lt w s) hs.pbuf_wf
  | start w x n f frame _ _ hl => exact blockInv_startExchange _ hl (acceptCommand_cmd_lt w s) hs.pbuf_wf
  | send b hp hb => exact hs.transmit hp hb
  | take b rest hp hx _ hi => exact hs.payloadStep b rest hp hx hi
  | judge => exact blockInv_complete _ _ _ hs.cmd_reserved hs.pbuf_wf
  | ack => exact blockInv_complete _ _ _ hs.cmd_reserved hs.pbuf_wf
  | eos => exact blockInv_complete _ _ _ hs.cmd_reserved hs.pbuf_wf
  | sent => exact { hs with }
  | close => exact { hs with }
  | reset => exact { blockInv_reset with }

/-- Settles O50: reset clears BUSY, DONE, OK and ERR, and PHASE is IDLE. -/
theorem resetStatusInv : Obligations.ResetStatusInv := statusInv_reset

/-- Settles O51, by cases on what the step did: a completion and a start write every flag of R25 themselves, the transmit step
keeps TXIDX in its bounds, and no other effect touches a field of R25. -/
theorem stepKeepsStatusInv : Obligations.StepKeepsStatusInv :=
  fun _ _ hs hstep => (step_effect hstep).statusInv hs.popMove

/-- Settles O52. -/
theorem resetBlockInv : Obligations.ResetBlockInv := blockInv_reset

/-- Settles O53, by cases on what the step did: each start is a legal one, the engine's transmit and payload steps carry the
invariant on, and a completion returns the engine to (IDLE, 0, 0). -/
theorem stepKeepsBlockInv : Obligations.StepKeepsBlockInv :=
  fun _ _ hs hstep => (step_effect hstep).blockInv hs.popMove

/-- Settles O54. -/
theorem resetValues : Obligations.ResetValues :=
  ⟨rfl, rfl, rfl, rfl, Memory.read_nil, rfl, rfl, rfl, rfl⟩

/-! ## The payload buffer -/

/-- Settles O16: both meet the unwritten byte in `withPayload`, SWRITE after the stream check (R201). -/
theorem unwrittenPayloadFaults : Obligations.UnwrittenPayloadFaults := by
  intro fmt f a n k s hb hk
  refine ⟨fun he hlt => ?_, fun hlt => ?_⟩
  · simp only [exec, execSwrite, onCommand_idle _ _ _ hb]
    rw [onOpenStream_open _ _ (by simpa using he)]
    exact withPayload_unwritten _ k _ _ hlt hk
  · rw [exec_decodeRow, onCommand_idle _ _ _ hb]
    exact withPayload_unwritten _ k _ _ hlt hk

/-- Where the engine writes PBUF, it does so at RXIDX, which is below XLEN. -/
theorem Effect.engine_read_pbuf {s t : State} (h : Effect s .engine t) (k : Nat) (hk : s.xlen.toNat ≤ k) :
    Memory.read t.pbuf k = Memory.read s.pbuf k := by
  cases h with
  | nothing => rfl
  | send => rw [transmit_pbuf]
  | take b rest _ _ _ hi => exact Memory.read_write_other s.pbuf s.rxidx k b (by omega)
  | judge => rfl
  | ack => rfl
  | eos => rfl

/-- Settles O60: XLEN is a byte, so no payload byte's index reaches 255. The invariant is not needed: the payload step's own guard
RXIDX < XLEN bounds the index. -/
theorem engineLeavesTopByte : Obligations.EngineLeavesTopByte := by
  intro s t _ hm hstep
  have heff := step_effect hstep
  rw [hm] at heff
  have hlen := s.xlen.isLt
  simpa using heff.engine_read_pbuf 255 (by simp only [popMove_xlen]; omega)

/-! ## The instrument -/

/-- The instrument's byte joins RXQ at its end, but not once the stream has ended (R19). -/
theorem instrumentByte_eq (b : Byte) (s : State) :
    instrumentByte b s = { s with rxq := if s.rxend then s.rxq else s.rxq ++ [b] } := by
  unfold instrumentByte
  split <;> rfl

/-- Settles O36. -/
theorem instrumentMoves : Obligations.InstrumentMoves := by
  intro s
  refine ⟨fun b hm => ?_, fun hm => ?_⟩
  · simp only [step, hm, runMove, instrumentByte_eq, popMove_rxend, popMove_rxq]
  · simp only [step, hm, runMove, instrumentEnd]

/-! ## Register loads -/

/-- A 4-byte load at one of the four registers. -/
theorem step_load_register (s : State) (off : Nat) (hm : nextMove s = .hostRead off 4) (ha : off % 4 = 0)
    (ho : off < 0x100) : step s = .next { popMove s with hostIn := s.hostIn ++ [registerRead off (popMove s)] } := by
  rw [step_load s off 4 hm ((supported_iff off 4).mpr (.inl ⟨rfl, ha, by omega⟩)), loadValue, if_pos ho]

/-- An appended bit vector's value: the high part shifted past the low part. -/
theorem append_toNat_eq {m n : Nat} (x : BitVec m) (y : BitVec n) : (x ++ y).toNat = x.toNat * 2 ^ n + y.toNat := by
  rw [BitVec.toNat_append, ← Nat.shiftLeft_add_eq_or_of_lt y.isLt, Nat.shiftLeft_eq]

/-- STATUS by weight (R13). -/
theorem statusWord_toNat (s : State) : (statusWord s).toNat =
    s.busy.toNat + 2 * s.done.toNat + 4 * s.ok.toNat + 16 * (errBits s.err).toNat + 256 * s.eosf.toNat
      + 512 * s.ovr.toNat := by
  simp only [statusWord, bit, append_toNat_eq, BitVec.toNat_ofNat, BitVec.toNat_ofBool]
  omega

/-- CHKINFO by weight (R15). -/
theorem chkinfoWord_toNat (s : State) :
    (chkinfoWord s).toNat = s.txchk.toNat + 256 * s.rxchk.toNat + 65536 * s.rxsum.toNat := by
  simp only [chkinfoWord, append_toNat_eq, BitVec.toNat_ofNat]
  omega

/-- ERR's number by the table of 60_exceptions.md R200. -/
theorem errBits_toNat_of_mem {e : ErrCode} {n : Nat}
    (h : (e, n) ∈ [(.none, 0), (.chksum, 1), (.eos, 2), (.illegalOp, 3), (.illegalFmt, 4)]) :
    (errBits e).toNat = n := by
  cases e <;> simpa [errBits, eq_comm] using h

/-- Settles O42. -/
theorem registerLoads : Obligations.RegisterLoads := by
  intro s
  refine ⟨fun hm => ?_, fun hm => ?_, fun e n hmem he hm => ?_, fun hm => ?_⟩
  · simpa [registerRead] using step_load_register s 0x000 hm rfl (by decide)
  · simpa [registerRead] using step_load_register s 0x008 hm rfl (by decide)
  · refine ⟨_, step_load_register s 0x004 hm rfl (by decide), ?_⟩
    subst he
    simp [registerRead, statusWord_toNat, errBits_toNat_of_mem hmem]
  · refine ⟨_, step_load_register s 0x00C hm rfl (by decide), ?_⟩
    simp [registerRead, chkinfoWord_toNat]

/-! ## The sticky flags -/

/-- EOSF keeps its value, or reset clears it, or an EOS completion by the engine sets it: a command can complete with EOS only
where EOSF is set already (60_exceptions.md R201 check 3). -/
theorem Effect.eosf_cases {s t : State} {m : Move} (h : Effect s m t) :
    t.eosf = s.eosf
    ∨ (t.eosf = false ∧ m = .reset)
    ∨ (t.eosf = true ∧ t.err = .eos ∧ t.done = true ∧ m = .engine) := by
  cases h with
  | nothing => exact .inl rfl
  | load => exact .inl rfl
  | status => exact .inl rfl
  | overrun => exact .inl rfl
  | fill => exact .inl rfl
  | finish w e v _ he =>
    left
    by_cases h : e = .eos
    · simp [he h]
    · simp [h]
  | start => exact .inl rfl
  | send => exact .inl (transmit_eosf s)
  | take => exact .inl rfl
  | judge _ _ _ _ _ _ _ _ he => left; rcases he with rfl | rfl <;> simp
  | ack _ _ _ _ _ _ he => left; rcases he with rfl | rfl <;> simp
  | eos => exact .inr (.inr ⟨by simp, rfl, rfl, rfl⟩)
  | sent => exact .inl rfl
  | close => exact .inl rfl
  | reset => exact .inr (.inl ⟨rfl, rfl⟩)

/-- OVR keeps its value, or an ignored write while BUSY sets it, or a STATUS store with bit 9 or reset clears it. -/
theorem Effect.ovr_cases {s t : State} {m : Move} (h : Effect s m t) :
    t.ovr = s.ovr
    ∨ (t.ovr = true ∧ s.busy = true
      ∧ ∃ off size v, m = .hostWrite off size v ∧ (off = 0x000 ∨ 0x100 ≤ off ∧ off < 0x200))
    ∨ (t.ovr = false ∧ (m = .reset ∨ ∃ v : Word, m = .hostWrite 0x004 4 v ∧ v.getLsbD 9 = true)) := by
  cases h with
  | nothing => exact .inl rfl
  | load => exact .inl rfl
  | status v =>
    cases hv : v.getLsbD 9 with
    | false => left; simp
    | true => exact .inr (.inr ⟨by simp, .inr ⟨v, rfl, hv⟩⟩)
  | overrun off size v hb ho => exact .inr (.inl ⟨rfl, hb, off, size, v, rfl, ho⟩)
  | fill => exact .inl rfl
  | finish => exact .inl rfl
  | start => exact .inl rfl
  | send => exact .inl (transmit_ovr s)
  | take => exact .inl rfl
  | judge => exact .inl rfl
  | ack => exact .inl rfl
  | eos => exact .inl rfl
  | sent => exact .inl rfl
  | close => exact .inl rfl
  | reset => exact .inr (.inr ⟨rfl, .inl rfl⟩)

/-- Settles O56. -/
theorem eosfSticky : Obligations.EosfSticky := by
  intro s t hstep
  have hcases := (step_effect hstep).eosf_cases
  rw [popMove_eosf] at hcases
  rcases hcases with hkept | ⟨hclear, hm⟩ | ⟨hset, herr, hdone, hm⟩
  · exact ⟨fun hs ht => by simp [hkept, hs] at ht, fun hs ht => by simp [hkept, hs] at ht⟩
  · exact ⟨fun _ _ => hm, fun _ ht => by simp [hclear] at ht⟩
  · exact ⟨fun _ ht => by simp [hset] at ht, fun _ _ => ⟨herr, hdone, hm⟩⟩

/-- Settles O57. -/
theorem ovrRules : Obligations.OvrRules := by
  intro s t hstep
  have hcases := (step_effect hstep).ovr_cases
  rw [popMove_ovr, popMove_busy] at hcases
  rcases hcases with hkept | ⟨hset, hbusy, hm⟩ | ⟨hclear, hm⟩
  · exact ⟨fun hs ht => by simp [hkept, hs] at ht, fun hs ht => by simp [hkept, hs] at ht⟩
  · exact ⟨fun _ _ => ⟨hbusy, hm⟩, fun _ ht => by simp [hset] at ht⟩
  · exact ⟨fun _ ht => by simp [hclear] at ht, fun _ _ => hm⟩

end Sys2Proof.Machine
end

section
/-!
PROOFS. The statements about the host register window (20_memory.md): what a load returns and a store changes at each kind of offset,
which accesses are refused, and where the window stands.
-/
namespace Sys2Proof.Machine

/-! ## Stores and loads below PBUF -/

theorem storeValue_status (v : Word) (s : State) : storeValue 0x004 4 v s = writeStatus v s := rfl

/-- Below PBUF only STATUS and CMD take a store (R45, R47), and CMD's does not come here. -/
theorem storeValue_ignored (off size : Nat) (v : Word) (s : State) (h4 : off ≠ 0x004) (ho : off < 0x100) :
    storeValue off size v s = s := by
  simp [storeValue, h4, ho]

/-- A 4-byte store at RESULT, CHKINFO or a reserved offset is ignored and sets no flag (R45, R47). -/
theorem step_store_ignored (s : State) (off : Nat) (v : Word) (hm : nextMove s = .hostWrite off 4 v) (ha : off % 4 = 0)
    (h8 : 0x008 ≤ off) (ho : off < 0x100) : step s = .next (popMove s) := by
  have hs : supported off 4 = true := (supported_iff off 4).mpr (.inl ⟨rfl, ha, by omega⟩)
  rw [step_store_other s off 4 v hm hs (by omega), storeValue_ignored off 4 v _ (by omega) ho]

theorem registerRead_reserved (off : Nat) (s : State) (h : 0x010 ≤ off) : registerRead off s = 0 := by
  unfold registerRead
  rw [if_neg (by omega), if_neg (by omega), if_neg (by omega), if_neg (by omega)]

/-- Settles O43. -/
theorem reservedRange : Obligations.ReservedRange := by
  intro s off hlo hhi ha
  refine ⟨fun hm => ?_, fun v hm => step_store_ignored s off v hm ha (by omega) hhi⟩
  rw [step_load_register s off hm ha hhi, registerRead_reserved off _ hlo]

/-- Settles O44. -/
theorem statusStore : Obligations.StatusStore := by
  intro s v hm
  rw [step_store_other s 0x004 4 v hm rfl (by decide), storeValue_status, writeStatus_eq]
  cases hv : v.getLsbD 9 <;> simp

/-- Settles O45. -/
theorem readOnlyStores : Obligations.ReadOnlyStores := by
  rintro s v (hm | hm)
  · exact step_store_ignored s 0x008 v hm rfl (by decide) (by decide)
  · exact step_store_ignored s 0x00C v hm rfl (by decide) (by decide)

/-! ## Words and their bytes -/

/-- Four bytes in little-endian order are the word with byte 3 on top (R42). -/
theorem wordOfBytes_four (b0 b1 b2 b3 : Byte) : wordOfBytes [b0, b1, b2, b3] = b3 ++ b2 ++ b1 ++ b0 := by
  apply BitVec.eq_of_toNat_eq
  have h0 := b0.isLt; have h1 := b1.isLt; have h2 := b2.isLt; have h3 := b3.isLt
  simp only [wordOfBytes, leValue, BitVec.toNat_ofNat, append_toNat_eq]
  omega

theorem wordOfBytes_one (b : Byte) : wordOfBytes [b] = b.setWidth 32 := by
  simp [wordOfBytes, leValue, BitVec.ofNat_toNat]

theorem wordBytes_getElem (v : Word) (k : Nat) (h : k < (wordBytes v).length) : (wordBytes v)[k] = wordByte v k := by
  match k, h with
  | 0, _ => rfl
  | 1, _ => rfl
  | 2, _ => rfl
  | 3, _ => rfl

/-! ## PBUF loads and stores -/

/-- A load in PBUF is a block read at the index that the offset names. -/
theorem loadValue_pbuf (k size : Nat) (s : State) :
    loadValue (0x100 + k) size s = (Memory.readBytes s.pbuf k size).map wordOfBytes := by
  rw [loadValue, if_neg (by omega), Nat.add_sub_cancel_left]

/-- A store in PBUF while BUSY = 0 is a block write at the index that the offset names. -/
theorem storeValue_pbuf (k size : Nat) (v : Word) (s : State) (hb : s.busy = false) :
    storeValue (0x100 + k) size v s = { s with pbuf := Memory.writeBytes s.pbuf k ((wordBytes v).take size) } := by
  rw [storeValue, if_neg (by omega), if_neg (by omega), if_neg (by simp [hb]), Nat.add_sub_cancel_left]

/-- The two shapes of PBUF access that R41 supports. -/
theorem supported_pbuf_iff (k size : Nat) :
    supported (0x100 + k) size = true ↔ size = 1 ∧ k < 256 ∨ size = 4 ∧ k % 4 = 0 ∧ k < 256 := by
  rw [supported_iff]
  omega

/-- A supported PBUF load whose bytes are all written. -/
theorem step_load_pbuf {s : State} {k size : Nat} {bs : List Byte} (hm : nextMove s = .hostRead (0x100 + k) size)
    (hs : supported (0x100 + k) size = true) (hr : Memory.readBytes s.pbuf k size = some bs) :
    step s = .next { popMove s with hostIn := s.hostIn ++ [wordOfBytes bs] } := by
  rw [step_load s _ size hm hs, loadValue_pbuf, popMove_pbuf, hr]
  rfl

/-- A supported PBUF load that meets an unwritten byte (R17). -/
theorem step_load_pbuf_unwritten {s : State} {k size : Nat} (hm : nextMove s = .hostRead (0x100 + k) size)
    (hs : supported (0x100 + k) size = true) (hr : Memory.readBytes s.pbuf k size = none) :
    step s = .fault .unwrittenPayload := by
  rw [step_load s _ size hm hs, loadValue_pbuf, popMove_pbuf, hr]
  rfl

/-- A supported PBUF store while BUSY = 0. -/
theorem step_store_pbuf {s : State} {k size : Nat} {v : Word} (hm : nextMove s = .hostWrite (0x100 + k) size v)
    (hs : supported (0x100 + k) size = true) (hb : s.busy = false) :
    step s = .next { popMove s with pbuf := Memory.writeBytes s.pbuf k ((wordBytes v).take size) } := by
  rw [step_store_other s _ size v hm hs (by omega), storeValue_pbuf _ _ _ _ (by simpa using hb), popMove_pbuf]

/-- Settles O46: a load is a block read of PBUF and a store a block write, so the bytes and the frame are the block laws'. -/
theorem pbufAccess : Obligations.PbufAccess := by
  intro s j hj
  have hword : supported (0x100 + 4 * j) 4 = true := (supported_pbuf_iff _ _).mpr (.inr (by omega))
  have hbyte {k : Nat} (hk : k < 256) : supported (0x100 + k) 1 = true := (supported_pbuf_iff _ _).mpr (.inl ⟨rfl, hk⟩)
  refine ⟨fun b0 b1 b2 b3 hm h0 h1 h2 h3 => ?_, fun k b hk hm hr => ?_, fun v hm hb => ?_, fun k v hk hm hb => ?_⟩
  · have hread : Memory.readBytes s.pbuf (4 * j) 4 = some [b0, b1, b2, b3] := by
      simp [Memory.readBytes, h0, h1, h2, h3]
    rw [step_load_pbuf hm hword hread, wordOfBytes_four]
  · have hread : Memory.readBytes s.pbuf k 1 = some [b] := by simp [Memory.readBytes, hr]
    rw [step_load_pbuf hm (hbyte hk) hread, wordOfBytes_one]
  · refine ⟨_, step_store_pbuf hm hword hb, fun k hk => ?_, fun i hi => Memory.read_writeBytes_other _ _ _ _ hi⟩
    exact (Memory.read_writeBytes_same (wordBytes v) _ _ k hk).trans (congrArg some (wordBytes_getElem v k hk))
  · refine ⟨_, step_store_pbuf hm (hbyte hk) hb, Memory.read_write_same _ _ _, fun i hi => ?_⟩
    exact Memory.read_write_other _ _ _ _ hi

/-- Settles O47. -/
theorem unwrittenLoadFaults : Obligations.UnwrittenLoadFaults := by
  intro s off size k hm hshape hlo hhi hk
  exact step_load_pbuf_unwritten hm ((supported_pbuf_iff off size).mpr hshape)
    (Memory.readBytes_eq_none s.pbuf off size k hlo hhi hk)

/-! ## Refused accesses -/

theorem onCommand_ne_refused (w : Word) (s : State) (body : State → Out) (r : Refusal)
    (h : ∀ t, body t ≠ .refused r) : onCommand w s body ≠ .refused r := by
  unfold onCommand
  split
  · exact nofun
  · exact h _

theorem onOpenStream_ne_refused (s : State) (body : Out) (r : Refusal) (h : body ≠ .refused r) :
    onOpenStream s body ≠ .refused r := by
  unfold onOpenStream
  split
  · exact nofun
  · exact h

theorem withPayload_ne_refused (n : Nat) (s : State) (body : List Byte → Out) (r : Refusal)
    (h : ∀ p, body p ≠ .refused r) : withPayload n s body ≠ .refused r := by
  unfold withPayload
  split
  · exact h _
  · exact nofun

/-- A command row answers a next state or the fault UnwrittenPayload, never a refusal. -/
theorem exec_command_ne_refused {w : Word} {i : Instr} (hd : decodeCommand w = .ok i) (s : State) (r : Refusal) :
    exec i s ≠ .refused r := by
  rcases decodeCommand_ok hd with ⟨-, rfl⟩ | ⟨-, rfl⟩ | ⟨f, -, -, rfl⟩ | ⟨f, -, -, rfl⟩
  · rw [exec, execSread]
    exact onCommand_ne_refused _ _ _ _ fun t => onOpenStream_ne_refused _ _ _ nofun
  · rw [exec, execSwrite]
    exact onCommand_ne_refused _ _ _ _ fun t =>
      onOpenStream_ne_refused _ _ _ (withPayload_ne_refused _ _ _ _ fun p => nofun)
  · rw [exec_decodeRow]
    exact onCommand_ne_refused _ _ _ _ fun t => withPayload_ne_refused _ _ _ _ fun p => nofun
  · rw [exec_rdchRow]
    exact onCommand_ne_refused _ _ _ _ fun t => onOpenStream_ne_refused _ _ _ nofun

theorem rejectCommand_ne_refused (j : Reject) (w : Word) (s : State) (r : Refusal) :
    rejectCommand j w s ≠ .refused r := by
  cases j with
  | illegalOp => rw [rejectCommand]; exact onCommand_ne_refused _ _ _ _ fun t => nofun
  | illegalFmt => rw [rejectCommand]; exact onCommand_ne_refused _ _ _ _ fun t => nofun
  | badLength => exact nofun
  | badCommandCode => exact nofun
  | badChecksum => exact nofun

theorem storeCommand_ne_refused (w : Word) (s : State) (r : Refusal) : storeCommand w s ≠ .refused r := by
  unfold storeCommand
  rw [decode_command_wordBytes]
  split
  · next i hi => exact exec_command_ne_refused hi s r
  · next j _ => exact rejectCommand_ne_refused j w s r

/-- In the window, a load is refused exactly where R41 does not support it. -/
theorem hostLoad_refused_iff (off size : Nat) (s : State) (hw : off < 0x200) :
    (∃ r, hostLoad off size s = .refused r) ↔ ¬ supported off size = true := by
  rw [hostLoad, if_pos (show inWindow off = true from decide_eq_true hw)]
  by_cases hs : supported off size = true
  · rw [if_pos hs]
    cases loadValue off size s <;> simp [hs]
  · simp [hs]

/-- In the window, a store is refused exactly where R41 does not support it: the store to CMD never refuses its word. -/
theorem hostStore_refused_iff (off size : Nat) (v : Word) (s : State) (hw : off < 0x200) :
    (∃ r, hostStore off size v s = .refused r) ↔ ¬ supported off size = true := by
  rw [hostStore, if_pos (show inWindow off = true from decide_eq_true hw)]
  by_cases hs : supported off size = true
  · rw [if_pos hs]
    split
    · simp [hs, storeCommand_ne_refused]
    · simp [hs]
  · simp [hs]

/-- Settles O48. -/
theorem unsupportedAccessRefused : Obligations.UnsupportedAccessRefused := by
  intro s off size hw good
  have hgood : supported off size = true ↔ good := by
    rw [supported_iff]
    simp only [good]
    omega
  rw [← hgood]
  refine ⟨fun hm => ?_, fun v hm => ?_⟩
  · rw [step, hm]
    exact hostLoad_refused_iff off size _ hw
  · rw [step, hm]
    exact hostStore_refused_iff off size v _ hw

/-! ## The window's place -/

theorem hostLoad_outside (off size : Nat) (s : State) (h : 0x200 ≤ off) : hostLoad off size s = .next s := by
  rw [hostLoad, if_neg]
  simpa [inWindow] using h

theorem hostStore_outside (off size : Nat) (v : Word) (s : State) (h : 0x200 ≤ off) :
    hostStore off size v s = .next s := by
  rw [hostStore, if_neg]
  simpa [inWindow] using h

theorem windowOffset_below {addr : Nat} (h : addr < Config.base) : windowOffset addr = none :=
  if_neg (Nat.not_le.mpr h)

/-- The address of an offset has that offset (R40). -/
theorem windowOffset_base_add (off : Nat) : windowOffset (Config.base + off) = some off := by
  rw [windowOffset, if_pos (Nat.le_add_right _ _), Nat.add_sub_cancel_left]

theorem busLoad_base_add (off size : Nat) (s : State) : busLoad (Config.base + off) size s = hostLoad off size s := by
  rw [busLoad, windowOffset_base_add]

theorem busStore_base_add (off size : Nat) (v : Word) (s : State) :
    busStore (Config.base + off) size v s = hostStore off size v s := by
  rw [busStore, windowOffset_base_add]

/-- Settles O49: an address below BASE has no offset, one from BASE + 0x200 up has an offset outside the window. -/
theorem windowAddresses : Obligations.WindowAddresses := by
  intro s addr size v
  refine ⟨?_, ?_⟩
  · rintro (hbelow | habove)
    · rw [busLoad, busStore, windowOffset_below hbelow]
      exact ⟨rfl, rfl⟩
    · obtain ⟨off, rfl⟩ := Nat.exists_eq_add_of_le (Nat.le_of_add_right_le habove)
      have hoff : 0x200 ≤ off := Nat.le_of_add_le_add_left habove
      rw [busLoad_base_add, busStore_base_add]
      exact ⟨hostLoad_outside off size s hoff, hostStore_outside off size v s hoff⟩
  · rintro off rfl -
    exact ⟨busLoad_base_add off size s, busStore_base_add off size v s⟩

end Sys2Proof.Machine
end

section
/-!
PROOFS. The statements about the encodings (30_encoding.md): decoding an encoding and encoding what decodes, the illegal command words
and how they complete, and the step as the decoded instruction's meaning.
-/
namespace Sys2Proof

/-! ## The rows -/

/-- The rows by the shapes of their encodings: the thirteen DECODE rows are one family over the formats, and so are the RDCH rows. -/
inductive Instr.Shape : Instr → Prop where
  | sread (fmt : Nibble) (addr len : Byte) : Shape (.sread fmt addr len)
  | swrite (fmt : Nibble) (addr len : Byte) : Shape (.swrite fmt addr len)
  | decode (f : Format) (addr len : Byte) : Shape (Instr.decodeRow f addr len)
  | rdch (f : Format) (addr len : Byte) : Shape (Instr.rdchRow f addr len)
  | shortReadReq (a n : Byte) : Shape (.shortReadReq a n)
  | shortWriteReq (a n : Byte) (p : List Byte) : Shape (.shortWriteReq a n p)
  | shortReadResp (b : Byte) : Shape (.shortReadResp b)
  | shortWriteAck (k : Byte) : Shape (.shortWriteAck k)

/-- Every instruction has one of the shapes. -/
theorem Instr.shape : ∀ i : Instr, Instr.Shape i
  | .sread fmt addr len => .sread fmt addr len
  | .swrite fmt addr len => .swrite fmt addr len
  | .decodeF1 addr len => .decode .f1 addr len
  | .decodeF2 addr len => .decode .f2 addr len
  | .decodeF3 addr len => .decode .f3 addr len
  | .decodeF4 addr len => .decode .f4 addr len
  | .decodeF5 addr len => .decode .f5 addr len
  | .decodeF6 addr len => .decode .f6 addr len
  | .decodeF7 addr len => .decode .f7 addr len
  | .decodeF8 addr len => .decode .f8 addr len
  | .decodeF2b addr len => .decode .f2b addr len
  | .decodeF3b addr len => .decode .f3b addr len
  | .decodeShsel addr len => .decode .shsel addr len
  | .decodeShlbl addr len => .decode .shlbl addr len
  | .decodeU8 addr len => .decode .u8 addr len
  | .rdchF1 addr len => .rdch .f1 addr len
  | .rdchF2 addr len => .rdch .f2 addr len
  | .rdchF3 addr len => .rdch .f3 addr len
  | .rdchF4 addr len => .rdch .f4 addr len
  | .rdchF5 addr len => .rdch .f5 addr len
  | .rdchF6 addr len => .rdch .f6 addr len
  | .rdchF7 addr len => .rdch .f7 addr len
  | .rdchF8 addr len => .rdch .f8 addr len
  | .rdchF2b addr len => .rdch .f2b addr len
  | .rdchF3b addr len => .rdch .f3b addr len
  | .rdchShsel addr len => .rdch .shsel addr len
  | .rdchShlbl addr len => .rdch .shlbl addr len
  | .rdchU8 addr len => .rdch .u8 addr len
  | .shortReadReq a n => .shortReadReq a n
  | .shortWriteReq a n p => .shortWriteReq a n p
  | .shortReadResp b => .shortReadResp b
  | .shortWriteAck k => .shortWriteAck k

section rowsOfAFormat
variable (f : Format) (addr len : Byte)

@[simp] theorem Instr.wf_decodeRow : (Instr.decodeRow f addr len).wf = true := by cases f <;> rfl
@[simp] theorem Instr.wf_rdchRow : (Instr.rdchRow f addr len).wf = true := by cases f <;> rfl
@[simp] theorem Instr.port_decodeRow : (Instr.decodeRow f addr len).port = .command := by cases f <;> rfl
@[simp] theorem Instr.port_rdchRow : (Instr.rdchRow f addr len).port = .command := by cases f <;> rfl

@[simp] theorem encode_decodeRow :
    encode (Instr.decodeRow f addr len) = wordBytes (commandWord opDecode f.code addr len) := by cases f <;> rfl

@[simp] theorem encode_rdchRow :
    encode (Instr.rdchRow f addr len) = wordBytes (commandWord opRdch f.code addr len) := by cases f <;> rfl

end rowsOfAFormat

theorem Instr.wf_shortWriteReq (a n : Byte) (p : List Byte) :
    (Instr.shortWriteReq a n p).wf = true ↔ p.length = n.toNat := by
  simp [Instr.wf]

/-! ## Decode and encode agree -/

/-- Settles O1, by the shapes of the encodings: each shape's decoder reads its encoder's bytes. -/
theorem decodeOfEncode : Obligations.DecodeOfEncode := by
  intro i hwf
  cases i.shape with
  | sread fmt addr len => exact (decode_command_wordBytes _).trans (decodeCommand_sread fmt addr len)
  | swrite fmt addr len => exact (decode_command_wordBytes _).trans (decodeCommand_swrite fmt addr len)
  | decode f addr len =>
    rw [Instr.port_decodeRow, encode_decodeRow, decode_command_wordBytes, decodeCommand_decode]
  | rdch f addr len => rw [Instr.port_rdchRow, encode_rdchRow, decode_command_wordBytes, decodeCommand_rdch]
  | shortReadReq a n => exact decodeRequest_shortReadFrame a n
  | shortWriteReq a n p => exact decodeRequest_shortWriteFrame a n p ((Instr.wf_shortWriteReq a n p).mp hwf)
  | shortReadResp b => rfl
  | shortWriteAck k => rfl

/-- What a command word decodes to is a well-formed command row, and encodes the word's four fields. -/
theorem encode_of_decodeCommand {w : Word} {i : Instr} (h : decodeCommand w = .ok i) :
    i.wf = true ∧ i.port = .command
      ∧ encode i = wordBytes (commandWord (opOf w) (fmtOf w) (addrOf w) (lenOf w)) := by
  rcases decodeCommand_ok h with ⟨ho, rfl⟩ | ⟨ho, rfl⟩ | ⟨f, ho, hf, rfl⟩ | ⟨f, ho, hf, rfl⟩
  · exact ⟨rfl, rfl, by rw [ho]; rfl⟩
  · exact ⟨rfl, rfl, by rw [ho]; rfl⟩
  · exact ⟨Instr.wf_decodeRow .., Instr.port_decodeRow .., by rw [ho, hf, encode_decodeRow]⟩
  · exact ⟨Instr.wf_rdchRow .., Instr.port_rdchRow .., by rw [ho, hf, encode_rdchRow]⟩

/-- Settles O2: the encoding holds the word's four fields, which are its bits 23:0. -/
theorem commandWordOfDecode : Obligations.CommandWordOfDecode := by
  intro w i h
  rw [decode_command_wordBytes] at h
  rw [← commandWord_fields]
  exact encode_of_decodeCommand h

/-- Settles O3. -/
theorem requestFrameOfDecode : Obligations.RequestFrameOfDecode := by
  intro bs i h
  rcases decodeRequest_ok h with ⟨a, n, rfl, hbs⟩ | ⟨a, n, p, rfl, hl, hbs⟩
  · exact ⟨rfl, rfl, hbs.symm⟩
  · exact ⟨(Instr.wf_shortWriteReq a n p).mpr hl, rfl, hbs.symm⟩

/-- Settles O4, by running the decoders on the written-out bytes. -/
theorem sampleWordsDecode : Obligations.SampleWordsDecode := by
  unfold Obligations.SampleWordsDecode
  decide

/-! ## Illegal command words -/

theorem opOf_eq_iff (w : Word) (c : Nibble) : opOf w = c ↔ w.toNat % 16 = c.toNat := by
  rw [← BitVec.toNat_inj, opOf_toNat]

theorem opOf_eq_opSread_iff (w : Word) : opOf w = opSread ↔ w.toNat % 16 = 1 := opOf_eq_iff w 1
theorem opOf_eq_opSwrite_iff (w : Word) : opOf w = opSwrite ↔ w.toNat % 16 = 2 := opOf_eq_iff w 2
theorem opOf_eq_opDecode_iff (w : Word) : opOf w = opDecode ↔ w.toNat % 16 = 3 := opOf_eq_iff w 3
theorem opOf_eq_opRdch_iff (w : Word) : opOf w = opRdch ↔ w.toNat % 16 = 4 := opOf_eq_iff w 4

theorem ofCode_fmtOf_eq_none_iff (w : Word) :
    Format.ofCode (fmtOf w) = none ↔ w.toNat / 16 % 16 = 0 ∨ 14 ≤ w.toNat / 16 % 16 := by
  rw [Format.ofCode_eq_none, fmtOf_toNat]

/-- The command decoder rejects OP 0 and 5 to 15, then FMT 0, 14 and 15 under DECODE and RDCH, and nothing else (R74). -/
theorem decodeCommand_error_iff (w : Word) (r : Reject) :
    decodeCommand w = .error r ↔
      (r = .illegalOp ∧ (w.toNat % 16 = 0 ∨ 5 ≤ w.toNat % 16))
      ∨ (r = .illegalFmt ∧ (w.toNat % 16 = 3 ∨ w.toNat % 16 = 4)
        ∧ (w.toNat / 16 % 16 = 0 ∨ 14 ≤ w.toNat / 16 % 16)) := by
  rw [eq_comm (b := Except.error r)]
  simp only [decodeCommand, opOf_eq_opSread_iff, opOf_eq_opSwrite_iff, opOf_eq_opDecode_iff, opOf_eq_opRdch_iff,
    ← ofCode_fmtOf_eq_none_iff]
  split
  · next h => simp [h]
  split
  · next h => simp [h]
  split
  · next h => cases Format.ofCode (fmtOf w) <;> simp [h]
  split
  · next h => cases Format.ofCode (fmtOf w) <;> simp [h]
  · next h1 h2 h3 h4 =>
    have hop : w.toNat % 16 = 0 ∨ 5 ≤ w.toNat % 16 := by omega
    simp [hop, h3, h4]

/-- Settles O5. -/
theorem illegalCommandWords : Obligations.IllegalCommandWords := by
  intro w
  rw [decode_command_wordBytes]
  simp only [decodeCommand_error_iff]
  exact ⟨by simp, by simp, fun r h => h.imp And.left And.left⟩

end Sys2Proof

namespace Sys2Proof.Machine

/-! ## Failures in the accept step -/

/-- CMD takes the word's bits 23:0 (R12). -/
theorem acceptCommand_cmd_eq (w : Word) (s : State) :
    (acceptCommand w s).cmd = BitVec.ofNat 32 (w.toNat % 2 ^ 24) := by
  apply BitVec.eq_of_toNat_eq
  rw [acceptCommand_cmd_toNat, BitVec.toNat_ofNat]
  omega

/-- A failure in the accept step, field by field: an EOS completion there finds EOSF set already (R201 check 3, R203). -/
theorem complete_acceptCommand_failure (e : ErrCode) (v : Int) (w : Word) {s : State} (hb : s.busy = false)
    (he : e ≠ .none) (heos : e = .eos → s.eosf = true) :
    complete e v (acceptCommand w s) = { s with
      cmd := BitVec.ofNat 32 (w.toNat % 2 ^ 24)
      done := true, ok := false, err := e, result := 0
      phase := .idle, txidx := 0, rxidx := 0, acc := 0 } := by
  have heosf : (s.eosf || decide (e = .eos)) = s.eosf := by
    by_cases h : e = .eos
    · simp [heos h]
    · simp [h]
  rw [← acceptCommand_cmd_eq w s]
  simp [complete, acceptCommand, hb, he, heosf]

/-- A store to CMD of a word that does not decode. -/
theorem step_store_rejected {s : State} {w : Word} {r : Reject} (hm : nextMove s = .hostWrite 0x000 4 w)
    (hd : decodeCommand w = .error r) : step s = rejectCommand r w (popMove s) := by
  rw [step_store_command s w hm, storeCommand, decode_command_wordBytes, hd]

/-- Settles O14: the decoder rejects the word, and the rejection completes in the accept step. -/
theorem illegalCommandsComplete : Obligations.IllegalCommandsComplete := by
  intro w s hm hb
  have hidle : (popMove s).busy = false := by rw [popMove_busy, hb]
  refine ⟨fun hop => ?_, fun hop hfmt => ?_⟩
  · have hd : decodeCommand w = .error .illegalOp := (decodeCommand_error_iff w _).mpr (.inl ⟨rfl, hop⟩)
    rw [step_store_rejected hm hd, rejectCommand, onCommand_idle _ _ _ hidle,
      complete_acceptCommand_failure .illegalOp 0 w hidle nofun nofun]
  · have hd : decodeCommand w = .error .illegalFmt := (decodeCommand_error_iff w _).mpr (.inr ⟨rfl, hop, hfmt⟩)
    rw [step_store_rejected hm hd, rejectCommand, onCommand_idle _ _ _ hidle,
      complete_acceptCommand_failure .illegalFmt 0 w hidle nofun nofun]

/-! ## The step runs the decoded instruction -/

/-- Settles O8. -/
theorem stepRunsDecodedCommand : Obligations.StepRunsDecodedCommand := by
  intro s w i hm hd
  rw [step_store_command s w hm, storeCommand, hd]

/-- While TX, an engine move is the meaning of the request frame in TXSEQ. -/
theorem engineMove_request {s : State} {i : Instr} (hp : s.phase = .tx) (hd : decode .request s.txseq = .ok i) :
    engineMove s = exec i s := by
  simp only [engineMove, hp, hd]

/-- Settles O9. -/
theorem stepRunsDecodedFrame : Obligations.StepRunsDecodedFrame := by
  intro s hm
  rw [step_engine s hm]
  refine ⟨fun i hp hd => ?_, fun b rest hp hq hx => ?_, fun k rest hp hq hx => ?_⟩
  · exact engineMove_request (by simpa using hp) (by simpa using hd)
  · exact engineMove_response _ b rest (by simpa using hp) (by simpa using hq) (by simpa using hx)
  · exact engineMove_ack _ k rest (by simpa using hp) (by simpa using hq) (by simpa using hx)

end Sys2Proof.Machine
end

section
/-!
PROOFS. The statements about the frame codec (40_frame_codec.md): the checksum byte, the commands that start an exchange, the engine's
byte steps with their frames, what bounds the transport, and whole exchanges on one schedule.
-/
namespace Sys2Proof

/-! ## Checksums -/

/-- The checksum-closing byte is the one's complement of the 8-bit sum (R100). -/
theorem chk8_eq_not (s : Nat) : chk8 s = ~~~ (BitVec.ofNat 8 s) := by
  apply BitVec.eq_of_toNat_eq
  rw [chk8_toNat, BitVec.toNat_not, BitVec.toNat_ofNat]

/-- Settles O6. -/
theorem checksumByte : Obligations.ChecksumByte :=
  ⟨fun s => ⟨chk8_toNat s, chk8_eq_not s⟩, rfl⟩

/-- The checksum byte is the one byte that closes a sequence to a sum of 0xFF mod 256 (R101). -/
theorem byteSum_snoc_eq_ff_iff (bs : List Byte) (c : Byte) :
    byteSum (bs ++ [c]) % 256 = 0xFF ↔ c = chk8 (byteSum bs) := by
  have hc := c.isLt
  rw [← BitVec.toNat_inj, chk8_toNat, byteSum_append, byteSum, byteSum]
  omega

/-- Every closed frame satisfies verify (R118). -/
theorem frameSumOk_closeFrame (bs : List Byte) : frameSumOk (closeFrame bs) = true :=
  beq_iff_eq.mpr ((byteSum_snoc_eq_ff_iff bs _).mpr rfl)

/-- Settles O7: what decodes as a request frame is one of the two frames, and both are closed by their checksum byte. -/
theorem frameSumLaw : Obligations.FrameSumLaw := by
  refine ⟨fun B => ⟨(byteSum_snoc_eq_ff_iff B _).mpr rfl, fun c => (byteSum_snoc_eq_ff_iff B c).mp⟩, fun bs i h => ?_⟩
  rcases decodeRequest_ok h with ⟨a, n, -, rfl⟩ | ⟨a, n, p, -, -, rfl⟩
  · exact frameSumOk_closeFrame _
  · exact frameSumOk_closeFrame _

end Sys2Proof

namespace Sys2Proof.Machine

/-! ## The commands that start an exchange -/

/-- The accept step on a command word, field by field: CMD is the four fields by weight (R12, R70). -/
theorem acceptCommand_commandWord (op fmt : Nibble) (addr len : Byte) (s : State) :
    acceptCommand (commandWord op fmt addr len) s = { s with
      cmd := BitVec.ofNat 32 (op.toNat + 16 * fmt.toNat + 256 * addr.toNat + 65536 * len.toNat)
      done := false, ok := false, err := .none, result := 0 } := by
  have hcmd := acceptCommand_cmd_eq (commandWord op fmt addr len) s
  have h1 := op.isLt; have h2 := fmt.isLt; have h3 := addr.isLt; have h4 := len.isLt
  rw [commandWord_toNat, Nat.mod_eq_of_lt (by omega)] at hcmd
  rw [← hcmd]
  rfl

/-- SREAD, met idle with the stream open, accepts its word and starts a short read (R112). -/
theorem exec_sread_open (fmt : Nibble) (a n : Byte) {s : State} (hb : s.busy = false) (he : s.eosf = false) :
    exec (.sread fmt a n) s =
      .next (startExchange .sread n fmt (shortReadFrame a n) (acceptCommand (commandWord opSread fmt a n) s)) := by
  rw [exec, execSread, onCommand_idle _ _ _ hb]
  exact onOpenStream_open _ _ he

/-- SWRITE, met idle with the stream open and its payload written, accepts its word and starts a short write (R113). -/
theorem exec_swrite_open (fmt : Nibble) (a n : Byte) {p : List Byte} {s : State} (hb : s.busy = false)
    (he : s.eosf = false) (hl : p.length = n.toNat) (hp : PbufHolds s.pbuf p) :
    exec (.swrite fmt a n) s =
      .next (startExchange .swrite n fmt (shortWriteFrame a n p) (acceptCommand (commandWord opSwrite fmt a n) s)) := by
  rw [exec, execSwrite, onCommand_idle _ _ _ hb, onOpenStream_open _ _ (by simpa using he)]
  exact withPayload_holds _ _ _ p hl hp

/-- Settles O10. -/
theorem sreadStartsExchange : Obligations.SreadStartsExchange := by
  intro fmt a n s hb he
  rw [exec_sread_open fmt a n hb he, acceptCommand_commandWord, shortReadFrame_eq]
  rfl

/-- TXCHK of a short write (R15, R111). -/
theorem shortWriteFrame_getLastD (a n : Byte) (p : List Byte) :
    (shortWriteFrame a n p).getLastD 0 = chk8 (0x01 + a.toNat + n.toNat + byteSum p) := by
  rw [shortWriteFrame_eq, List.getLastD_concat]

/-- Settles O11. -/
theorem swriteStartsExchange : Obligations.SwriteStartsExchange := by
  intro fmt a n p s hb he hl hp
  rw [exec_swrite_open fmt a n hb he hl hp, acceptCommand_commandWord, startExchange, shortWriteFrame_getLastD,
    shortWriteFrame_eq]
  rfl

/-! ## Transmit steps -/

/-- The transmit step field by field, its turn to RX on the byte at index last (R106). -/
theorem transmit_fields {s : State} {b : Byte} {last : Nat} (hp : s.phase = .tx) (hb : s.txseq[s.txidx]? = some b)
    (hl : s.txseq.length = last + 1) :
    transmit s = { s with
      txs := s.txs ++ [b], txidx := s.txidx + 1
      phase := if s.txidx = last then .rx else .tx
      rxidx := if s.txidx = last then 0 else s.rxidx
      acc := if s.txidx = last then 0 else s.acc } := by
  rw [transmit_some s b hb, hl]
  by_cases h : s.txidx = last
  · simp [h]
  · simp [h, hp]

/-- Settles O28. -/
theorem shortReadRequestSends : Obligations.ShortReadRequestSends := by
  intro a n b s hp hf hb
  rw [exec, execShortReadReq, if_pos ⟨hp, hf.trans (shortReadFrame_eq a n).symm⟩]
  exact congrArg _ (transmit_fields hp hb (by rw [hf]; rfl))

/-- Settles O29. -/
theorem shortWriteRequestSends : Obligations.ShortWriteRequestSends := by
  intro a n b p s hp hl hf hb
  rw [exec, execShortWriteReq, if_pos ⟨hp, hf.trans (shortWriteFrame_eq a n p).symm⟩]
  exact congrArg _ (transmit_fields hp hb (by simp [hf, hl]))

/-- Settles O30. -/
theorem transmitStep : Obligations.TransmitStep := by
  intro s b hm hp hb
  rw [step_engine s hm, engineMove_tx _ (by simpa using hp), transmit_some _ b (by simpa using hb)]
  simp only [popMove_txs, popMove_txidx, popMove_txseq]

/-! ## Response steps -/

/-- A sum of two bytes mod 256. -/
theorem byte_add_eq (x y : Byte) : x + y = BitVec.ofNat 8 ((x.toNat + y.toNat) % 256) := by
  apply BitVec.eq_of_toNat_eq
  simp

/-- A completion that a test decides, field by field (R203). -/
theorem complete_judged (c : Prop) [Decidable c] (v : Int) (s : State) :
    complete (if c then .none else .chksum) v s = { s with
      phase := .idle, txidx := 0, rxidx := 0, acc := 0
      busy := false, done := true, err := if c then .none else .chksum, ok := decide c
      result := if c then BitVec.ofInt 32 v else 0 } := by
  by_cases h : c
  · simp [complete, h]
  · simp [complete, h]

/-- The trailing byte of a short read, judged by the response sum: v is what a good sum completes with (R109). -/
theorem trailingStep_judged {t : Byte} {v : Int} {s : State}
    (hgood : s.acc + t = 0xFF →
      trailingStep t s = .next (complete .none v { s with rxchk := t, rxsum := s.acc + t })) :
    trailingStep t s =
      .next (complete (if (s.acc.toNat + t.toNat) % 256 = 0xFF then .none else .chksum) v
        { s with rxchk := t, rxsum := BitVec.ofNat 8 ((s.acc.toNat + t.toNat) % 256) }) := by
  rw [← byte_add_eq]
  by_cases h : s.acc + t = 0xFF
  · rw [hgood h, if_pos ((add_eq_ff _ _).mp h)]
  · rw [trailingStep_bad t s h, if_neg (mt (add_eq_ff _ _).mpr h)]
    rfl

/-- The trailing byte of an SREAD: RESULT is 0 whatever the sum. -/
theorem trailingStep_sread_judged (t : Byte) {s : State} (hx : s.xop = .sread) :
    trailingStep t s =
      .next (complete (if (s.acc.toNat + t.toNat) % 256 = 0xFF then .none else .chksum) 0
        { s with rxchk := t, rxsum := BitVec.ofNat 8 ((s.acc.toNat + t.toNat) % 256) }) :=
  trailingStep_judged fun h => trailingStep_sread t s h hx

/-- The trailing byte's meaning, its guard true. -/
theorem exec_shortReadResp_trailing {t : Byte} {rest : List Byte} {s : State} (hp : s.phase = .rx) (hx : s.xop ≠ .swrite)
    (hq : s.rxq = t :: rest) (hi : s.rxidx = s.xlen.toNat) :
    exec (.shortReadResp t) s = trailingStep t { s with rxq := rest } := by
  rw [exec_shortReadResp t rest s hp hx hq, if_neg (by omega), if_pos hi]

/-- Settles O31. -/
theorem responsePayloadByte : Obligations.ResponsePayloadByte := by
  intro b rest s hp hx hq hi
  refine ⟨Memory.write s.pbuf s.rxidx b, Memory.read_write_same _ _ _,
    fun k hk => Memory.read_write_other _ _ _ _ hk, ?_⟩
  rw [exec_shortReadResp b rest s hp hx hq, if_pos hi, ← byte_add_eq]
  rfl

/-- Settles O32. -/
theorem responseTrailingByteOfSread : Obligations.ResponseTrailingByteOfSread := by
  intro t rest s hp hx hq hi
  rw [exec_shortReadResp_trailing hp (by simp [hx]) hq hi,
    trailingStep_sread_judged t (s := { s with rxq := rest }) hx, complete_judged]
  simp

/-- Settles O33: XFMT names the format whose decode a good sum completes with. -/
theorem responseTrailingByteOfRdch : Obligations.ResponseTrailingByteOfRdch := by
  intro t rest p f s hp hx hq hi hf hl hheld
  have hcode : Format.ofCode s.xfmt = some f := by rw [hf, Format.ofCode_code]
  have hchannel : s.xop ≠ .sread := by simp [hx]
  rw [exec_shortReadResp_trailing hp (by simp [hx]) hq hi, trailingStep_judged (s := { s with rxq := rest })
    fun h => trailingStep_channel t _ f p h hchannel hcode hl hheld, complete_judged]

/-- Settles O34. -/
theorem ackByte : Obligations.AckByte := by
  intro k rest s hp hx hq
  rw [exec_shortWriteAck k rest s hp hx hq, ackStep_eq, complete_judged]
  simp

/-- Settles O35. -/
theorem endOfStreamStep : Obligations.EndOfStreamStep := by
  intro s hm hp hq he
  rw [step_engine s hm, engineMove_eos _ (by simpa using hp) (by simpa using hq) (by simpa using he)]
  simp [complete]

/-! ## What the transport lets a step do -/

/-- With the response awaited, no byte queued and the stream open, only the instrument and reset can end the wait (R104, R209). -/
theorem Effect.hang {s t : State} {m : Move} (h : Effect s m t) (hb : s.busy = true) (hp : s.phase = .rx)
    (hq : s.rxq = []) (he : s.rxend = false) (hbyte : ∀ b, m ≠ .instrByte b) (hend : m ≠ .instrEnd) (hreset : m ≠ .reset) :
    t.busy = true ∧ t.phase = .rx ∧ t.rxq = [] ∧ t.rxend = false ∧ t.done = s.done ∧ t.pbuf = s.pbuf
      ∧ t.txs = s.txs := by
  have hkept : s.busy = true ∧ s.phase = .rx ∧ s.rxq = [] ∧ s.rxend = false ∧ s.done = s.done ∧ s.pbuf = s.pbuf
      ∧ s.txs = s.txs := ⟨hb, hp, hq, he, rfl, rfl, rfl⟩
  cases h with
  | nothing => exact hkept
  | load => exact hkept
  | status => exact hkept
  | overrun => exact hkept
  | fill _ _ _ hidle => exact nomatch hb.symm.trans hidle
  | finish _ _ _ hidle => exact nomatch hb.symm.trans hidle
  | start _ _ _ _ _ hidle => exact nomatch hb.symm.trans hidle
  | send _ htx => exact nomatch hp.symm.trans htx
  | take _ _ _ _ hqueued => exact nomatch hq.symm.trans hqueued
  | judge _ _ _ _ _ _ hqueued => exact nomatch hq.symm.trans hqueued
  | ack _ _ _ _ _ hqueued => exact nomatch hq.symm.trans hqueued
  | eos _ _ hended => exact nomatch he.symm.trans hended
  | sent b => exact absurd rfl (hbyte b)
  | close => exact absurd rfl hend
  | reset => exact absurd rfl hreset

/-- Settles O37. -/
theorem silentInstrumentHangs : Obligations.SilentInstrumentHangs := by
  intro s t hb hp hq he hbyte hend hreset hstep
  simpa using (step_effect hstep).hang (by simpa using hb) (by simpa using hp) (by simpa using hq) (by simpa using he)
    hbyte hend hreset

/-- TXS keeps its value, or the engine in TX puts the next byte of TXSEQ at its end (R105, R114). -/
theorem Effect.txs_cases {s t : State} {m : Move} (h : Effect s m t) :
    t.txs = s.txs
    ∨ (m = .engine ∧ s.phase = .tx ∧ ∃ b, s.txseq[s.txidx]? = some b ∧ t.txs = s.txs ++ [b]) := by
  cases h with
  | nothing => exact .inl rfl
  | load => exact .inl rfl
  | status => exact .inl rfl
  | overrun => exact .inl rfl
  | fill => exact .inl rfl
  | finish => exact .inl rfl
  | start => exact .inl rfl
  | send b hp hb =>
    refine .inr ⟨rfl, hp, b, hb, ?_⟩
    rw [transmit_some s b hb]
    split <;> rfl
  | take => exact .inl rfl
  | judge => exact .inl rfl
  | ack => exact .inl rfl
  | eos => exact .inl rfl
  | sent => exact .inl rfl
  | close => exact .inl rfl
  | reset => exact .inl rfl

@[simp] theorem transmit_rxq (s : State) : (transmit s).rxq = s.rxq := by
  obtain ⟨_, _, _, _, _, heq⟩ := transmit_frame s
  rw [heq]

/-- RXQ keeps its value, or the engine in RX takes its oldest byte, or the instrument adds one at its end (R104, R115, R19). -/
theorem Effect.rxq_cases {s t : State} {m : Move} (h : Effect s m t) :
    t.rxq = s.rxq
    ∨ (m = .engine ∧ s.phase = .rx ∧ t.rxq = s.rxq.tail)
    ∨ (∃ b, m = .instrByte b ∧ s.rxend = false ∧ t.rxq = s.rxq ++ [b]) := by
  cases h with
  | nothing => exact .inl rfl
  | load => exact .inl rfl
  | status => exact .inl rfl
  | overrun => exact .inl rfl
  | fill => exact .inl rfl
  | finish => exact .inl rfl
  | start => exact .inl rfl
  | send => exact .inl (transmit_rxq s)
  | take b rest hp _ hq => exact .inr (.inl ⟨rfl, hp, by simp [hq]⟩)
  | judge b rest _ _ hp _ hq => exact .inr (.inl ⟨rfl, hp, by simp [hq]⟩)
  | ack k rest _ hp _ hq => exact .inr (.inl ⟨rfl, hp, by simp [hq]⟩)
  | eos => exact .inl rfl
  | sent b hend => exact .inr (.inr ⟨b, rfl, hend, rfl⟩)
  | close => exact .inl rfl
  | reset => exact .inl rfl

/-- Settles O58. -/
theorem transportDiscipline : Obligations.TransportDiscipline := by
  intro s t hstep
  have htxs := (step_effect hstep).txs_cases
  have hrxq := (step_effect hstep).rxq_cases
  simp only [popMove_txs, popMove_rxq, popMove_phase, popMove_txseq, popMove_txidx, popMove_rxend] at htxs hrxq
  exact ⟨htxs.resolve_left, hrxq.resolve_left⟩

/-! ## Whole exchanges -/

/-- An engine move at the end of the stream completes with EOS, and the engine moves after it change nothing (R107). -/
theorem steps_eos (k : Nat) (s : State) (hp : s.phase = .rx) (hq : s.rxq = []) (he : s.rxend = true) :
    steps (k + 1) (s.plan (List.replicate (k + 1) .engine)) = .next (complete .eos 0 s) := by
  have hstep (ms : List Move) : step (s.plan (.engine :: ms)) = .next ((complete .eos 0 s).plan ms) := by
    rw [step_plan_engine, engineMove_eos (s.plan ms) hp hq he]
    rfl
  simpa using steps_complete k s _ [] (hstep _) rfl

/-- An engine move on a queued ack byte completes a short write by equality with TXCHK, and the engine moves after it change
nothing (R110). -/
theorem steps_ack (k : Nat) (c : Byte) (rest : List Byte) (s : State) (hp : s.phase = .rx) (hx : s.xop = .swrite)
    (hq : s.rxq = c :: rest) :
    steps (k + 1) (s.plan (List.replicate (k + 1) .engine)) =
      .next (complete (if c = s.txchk then .none else .chksum) 0 { s with rxq := rest, rxchk := c, rxsum := 0 }) := by
  have hstep (ms : List Move) : step (s.plan (.engine :: ms)) =
      .next ((complete (if c = s.txchk then .none else .chksum) 0
        { s with rxq := rest, rxchk := c, rxsum := 0 }).plan ms) := by
    rw [step_plan_engine, engineMove_ack (s.plan ms) c rest hp hq hx, exec_shortWriteAck c rest (s.plan ms) hp hx hq,
      ackStep_eq]
    rfl
  simpa using steps_complete k s _ [] (hstep _) rfl

/-- Engine moves that find no byte queued and the stream open change nothing, to the end of the plan (R104). -/
theorem steps_wait (k : Nat) (s : State) (hp : s.phase = .rx) (hq : s.rxq = []) (he : s.rxend = false) :
    steps k (s.plan (List.replicate k .engine)) = .next s := by
  simpa using steps_hold k s [] hp hq he

/-- An SREAD that has sent its request and taken the payload bytes p, with the bytes rest left in RXQ. -/
def sreadTaken (fmt : Nibble) (a n : Byte) (p rest : List Byte) (s : State) : State :=
  { turned .sread n fmt (shortReadFrame a n) (commandWord opSread fmt a n) s with
    rxq := rest, rxidx := p.length, acc := BitVec.ofNat 8 (byteSum p), pbuf := Memory.writeBytes s.pbuf 0 p }

/-- The SREAD store and p.length + 4 engine moves send the request and take the bytes p; j engine moves are left. -/
theorem steps_sread (fmt : Nibble) (a n : Byte) (p rest : List Byte) (s : State) (j : Nat) (hb : s.busy = false)
    (he : s.eosf = false) (hl : p.length ≤ n.toNat) (hq : s.rxq = p ++ rest) :
    steps (p.length + 5) (s.plan (commandThenEngine (commandWord opSread fmt a n) (p.length + 4 + j))) =
      .next ((sreadTaken fmt a n p rest s).plan (List.replicate j .engine)) := by
  rw [commandThenEngine, List.replicate_add]
  exact steps_read .sread _ _ a n fmt p rest s _ (decodeCommand_sread fmt a n) nofun hl hq
    fun ms => exec_sread_open fmt a n hb he

/-- An SWRITE of the payload p that has sent its request. -/
def swriteSent (fmt : Nibble) (a n : Byte) (p : List Byte) (s : State) : State :=
  turned .swrite n fmt (shortWriteFrame a n p) (commandWord opSwrite fmt a n) s

/-- The SWRITE store and n + 4 engine moves send the request; j engine moves are left. -/
theorem steps_swrite (fmt : Nibble) (a n : Byte) (p : List Byte) (s : State) (j : Nat) (hb : s.busy = false)
    (he : s.eosf = false) (hl : p.length = n.toNat) (hp : PbufHolds s.pbuf p) :
    steps (n.toNat + 5) (s.plan (commandThenEngine (commandWord opSwrite fmt a n) (n.toNat + 4 + j))) =
      .next ((swriteSent fmt a n p s).plan (List.replicate j .engine)) := by
  have hlen : (shortWriteFrame a n p).length = n.toNat + 4 := by simp [shortWriteFrame_eq, hl]
  have hrun := steps_start .swrite _ _ n fmt (shortWriteFrame a n p) s (List.replicate j .engine)
    (decodeCommand_swrite fmt a n) (by simp [shortWriteFrame_eq]) fun ms => exec_swrite_open fmt a n hb he hl hp
  rw [hlen] at hrun
  rw [commandThenEngine, List.replicate_add]
  exact hrun

/-- The whole run of an SREAD whose response is queued: the trailing byte's step judges the sum of p and t. -/
theorem steps_sread_judged (fmt : Nibble) (a n t : Byte) (p rest : List Byte) (s : State) (hb : s.busy = false)
    (he : s.eosf = false) (hl : p.length = n.toNat) (hq : s.rxq = p ++ t :: rest) :
    steps (n.toNat + 6) (s.plan (commandThenEngine (commandWord opSread fmt a n) (n.toNat + 5))) =
      .next (complete (if (byteSum p + t.toNat) % 256 = 0xFF then .none else .chksum) 0
        { sreadTaken fmt a n p rest s with
          rxchk := t, rxsum := BitVec.ofNat 8 ((byteSum p + t.toNat) % 256) }) := by
  have hrun := steps_sread fmt a n p (t :: rest) s 1 hb he hl.le hq
  have hlast := step_trailing t rest (sreadTaken fmt a n p (t :: rest) s) [] rfl nofun rfl hl
  have hsum : ((BitVec.ofNat 8 (byteSum p)).toNat + t.toNat) % 256 = (byteSum p + t.toNat) % 256 := by
    rw [BitVec.toNat_ofNat, Nat.mod_add_mod]
  rw [plan_nil, trailingStep_sread_judged t rfl] at hlast
  rw [← hsum, ← hl, steps_add 1 hrun]
  exact steps_succ 0 hlast

/-- Settles O38. -/
theorem shortReadExchange : Obligations.ShortReadExchange := by
  intro fmt a n t p rest s hb he hl hq
  have hrun := steps_sread_judged fmt a n t p rest s hb he hl hq
  rw [complete_judged] at hrun
  refine ⟨_, hrun, congrArg (s.txs ++ ·) (shortReadFrame_eq a n), rfl, PbufHolds.of_writeBytes s.pbuf p,
    fun k hk => Memory.read_writeBytes_other _ _ _ _ (by omega), rfl, ?_, rfl, rfl, ?_, he, rfl, rfl, rfl⟩
  · simp
  · simp

/-- Settles O39: after the queued bytes are taken, the next engine move finds the stream ended, or every one holds. -/
theorem shortReadCutShort : Obligations.ShortReadCutShort := by
  intro fmt a n s k hb he hl
  have hrun := steps_add (k + 1) (steps_sread fmt a n s.rxq [] s (k + 1) hb he hl (List.append_nil _).symm)
  have htxs := congrArg (s.txs ++ ·) (shortReadFrame_eq a n)
  have hheld := PbufHolds.of_writeBytes s.pbuf s.rxq
  rw [show s.rxq.length + 6 + k = s.rxq.length + 5 + (k + 1) by omega,
    show s.rxq.length + 5 + k = s.rxq.length + 4 + (k + 1) by omega]
  cases hend : s.rxend with
  | true =>
    refine ⟨_, hrun.trans (steps_eos k _ rfl rfl hend), htxs, rfl, hheld, rfl, fun _ => ⟨rfl, rfl, rfl, ?_, rfl⟩, nofun⟩
    simp
  | false =>
    exact ⟨_, hrun.trans (steps_wait (k + 1) _ rfl rfl hend), htxs, rfl, hheld, rfl, nofun, fun _ => ⟨rfl, rfl, rfl⟩⟩

/-- Settles O40: with the request sent, the next engine move finds an ack byte or the stream ended, or every one holds. -/
theorem shortWriteExchange : Obligations.ShortWriteExchange := by
  intro fmt a n p s k hb he hl hp
  have hrun := steps_add (k + 1) (steps_swrite fmt a n p s (k + 1) hb he hl hp)
  have htxs := congrArg (s.txs ++ ·) (shortWriteFrame_eq a n p)
  have hchk := shortWriteFrame_getLastD a n p
  rw [show n.toNat + 6 + k = n.toNat + 5 + (k + 1) by omega,
    show n.toNat + 5 + k = n.toNat + 4 + (k + 1) by omega]
  cases hq : s.rxq with
  | cons c rest =>
    have hack := steps_ack k c rest (swriteSent fmt a n p s) rfl rfl hq
    rw [complete_judged] at hack
    refine ⟨_, hrun.trans hack, htxs, rfl, rfl, rfl, ?_, nofun, nofun⟩
    rintro _ _ ⟨rfl, rfl⟩
    rw [← hchk]
    exact ⟨rfl, rfl, rfl, rfl, rfl, rfl⟩
  | nil =>
    cases hend : s.rxend with
    | true =>
      refine ⟨_, hrun.trans (steps_eos k _ rfl hq hend), htxs, rfl, rfl, hq, nofun,
        fun _ _ => ⟨rfl, rfl, rfl, ?_⟩, nofun⟩
      simp
    | false =>
      exact ⟨_, hrun.trans (steps_wait (k + 1) _ rfl hq hend), htxs, rfl, rfl, hq, nofun, nofun, fun _ _ => ⟨rfl, rfl⟩⟩

end Sys2Proof.Machine
end

section
/-!
PROOFS. The statements about the value decoder (41_value_decoder.md): the accept step of a DECODE and of an RDCH row, the decoded
values in plain arithmetic with their ranges, and the round trip with the instrument's encoder.
-/
namespace Sys2Proof.Machine

/-! ## The DECODE and RDCH rows -/

/-- A success in the accept step, field by field (R111, R203). -/
theorem complete_acceptCommand_success (v : Int) (op fmt : Nibble) (addr len : Byte) (s : State) :
    complete .none v (acceptCommand (commandWord op fmt addr len) s) = { s with
      cmd := BitVec.ofNat 32 (op.toNat + 16 * fmt.toNat + 256 * addr.toNat + 65536 * len.toNat)
      busy := false, done := true, ok := true, err := .none, result := BitVec.ofInt 32 v
      phase := .idle, txidx := 0, rxidx := 0, acc := 0 } := by
  rw [acceptCommand_commandWord]
  simp [complete]

/-- DECODE, met idle with its payload written, accepts its word and completes (R160). -/
theorem exec_decodeRow_holds (f : Format) (addr len : Byte) {p : List Byte} {s : State} (hb : s.busy = false)
    (hl : p.length = fmtlen f) (hp : PbufHolds s.pbuf p) :
    exec (Instr.decodeRow f addr len) s =
      .next (complete .none (decodeValue f p) (acceptCommand (commandWord opDecode f.code addr len) s)) := by
  rw [exec_decodeRow, onCommand_idle _ _ _ hb]
  exact withPayload_holds _ _ _ p hl hp

/-- Settles O12. -/
theorem decodeCompletesAtOnce : Obligations.DecodeCompletesAtOnce := by
  intro f addr len p s hb hl hp
  rw [exec_decodeRow_holds f addr len hb hl hp, complete_acceptCommand_success]
  rfl

/-- RDCH, met idle with the stream open, accepts its word and starts a short read of its format's length (R180). -/
theorem exec_rdchRow_open (f : Format) (a len : Byte) {s : State} (hb : s.busy = false) (he : s.eosf = false) :
    exec (Instr.rdchRow f a len) s =
      .next (startShortRead .rdch a (BitVec.ofNat 8 (fmtlen f)) f.code
        (acceptCommand (commandWord opRdch f.code a len) s)) := by
  rw [exec_rdchRow, onCommand_idle _ _ _ hb]
  exact onOpenStream_open _ _ he

/-- Settles O13. -/
theorem rdchStartsExchange : Obligations.RdchStartsExchange := by
  intro f a len s hb he
  rw [exec_rdchRow_open f a len hb he, acceptCommand_commandWord, startShortRead, shortReadFrame_eq, fmtlen_toNat]
  rfl

/-- What a DECODE that answers leaves in RESULT: the value of the bytes that PBUF holds. -/
theorem exec_decodeRow_next {f : Format} {addr len : Byte} {s t : State} (hb : s.busy = false)
    (h : exec (Instr.decodeRow f addr len) s = .next t) :
    ∃ p, Memory.readBytes s.pbuf 0 (fmtlen f) = some p ∧ t.result = BitVec.ofInt 32 (decodeValue f p) := by
  rw [exec_decodeRow, onCommand_idle _ _ _ hb] at h
  obtain ⟨p, hl, hp, hbody⟩ := withPayload_next h
  injection hbody with hbody
  exact ⟨p, Memory.readBytes_of_holds _ p _ hl hp, by rw [← hbody]; rfl⟩

/-- Settles O27: two states that agree on the payload bytes answer the same block read. -/
theorem decodeReadsPayloadOnly : Obligations.DecodeReadsPayloadOnly := by
  intro f a1 n1 a2 n2 s1 s2 t1 t2 hb1 hb2 hagree h1 h2
  obtain ⟨p1, hp1, hr1⟩ := exec_decodeRow_next hb1 h1
  obtain ⟨p2, hp2, hr2⟩ := exec_decodeRow_next hb2 h2
  have hread := Memory.readBytes_congr s1.pbuf s2.pbuf 0 (fmtlen f) fun k _ hk => hagree k (by omega)
  rw [hp1, hp2] at hread
  rw [hr1, hr2, Option.some.inj hread]

/-! ## The decoded values in plain arithmetic -/

/-- The toward-zero quotient as the floor of the magnitude on each side of zero. -/
theorem truncDiv_eq_ite (a : Int) (b : Nat) :
    truncDiv a b = if 0 ≤ a then a / (b : Int) else -((-a) / (b : Int)) := by
  obtain ⟨n, rfl | rfl⟩ := a.eq_nat_or_neg
  · rw [if_pos (by omega), truncDiv_natCast, Int.natCast_div]
  · rw [truncDiv_neg, truncDiv_natCast, Int.neg_neg, Int.natCast_div]
    split
    · next h =>
      obtain rfl : n = 0 := by omega
      simp
    · rfl

/-- Settles O24. -/
theorem truncatingDivision : Obligations.TruncatingDivision :=
  ⟨fun a b _ => ⟨rfl, truncDiv_eq_ite a b⟩, rfl, rfl⟩

theorem decF1_eq (p : List Byte) : decF1 p = 5 * ((rawValue 2 p % 2048 : Nat) : Int) := by
  rw [decF1, show 0x7FF = 2 ^ 11 - 1 from rfl, Nat.and_two_pow_sub_one_eq_mod]
  omega

theorem decF3_eq (p : List Byte) :
    decF3 p = if rawValue 3 p < 2 ^ 23 then -(rawValue 3 p : Int) else ((2 ^ 24 - 1 - rawValue 3 p : Nat) : Int) := by
  rw [decF3, signByInversion_eq _ 24 0 (by omega) (rawValue_lt 3 p), Nat.pow_zero, Nat.div_one, Nat.div_one]

theorem decF2_eq (p : List Byte) :
    decF2 p = if rawValue 3 p < 2 ^ 23 then -((10 * (rawValue 3 p / 10) : Nat) : Int)
      else ((10 * ((2 ^ 24 - 1 - rawValue 3 p) / 10) : Nat) : Int) := by
  rw [decF2, decF3_eq]
  split
  · rw [truncDiv_neg, truncDiv_natCast]
    omega
  · rw [truncDiv_natCast]
    omega

theorem decF4_eq (p : List Byte) :
    decF4 p = if rawValue 4 p < 2 ^ 31 then -((rawValue 4 p / 128 : Nat) : Int)
      else (((2 ^ 32 - 1 - rawValue 4 p) / 128 : Nat) : Int) :=
  signByInversion_eq _ 32 7 (by omega) (rawValue_lt 4 p)

theorem decF5_eq (p : List Byte) :
    decF5 p = if rawValue 4 p < 2 ^ 31 then -(rawValue 4 p : Int) else ((2 ^ 32 - 1 - rawValue 4 p : Nat) : Int) := by
  rw [decF5, signByInversion_eq _ 32 0 (by omega) (rawValue_lt 4 p), Nat.pow_zero, Nat.div_one, Nat.div_one]

theorem decF7_eq (p : List Byte) :
    decF7 p = if rawValue 2 p < 2 ^ 15 then (rawValue 2 p : Int) else (rawValue 2 p : Int) - 2 ^ 16 := by
  have h : rawValue 2 p < 2 ^ 16 := rawValue_lt 2 p
  rw [decF7, BitVec.toInt_eq_toNat_cond, BitVec.toNat_ofNat, Nat.mod_eq_of_lt h]
  omega

theorem decF8_eq (p : List Byte) :
    decF8 p = 10 * (if rawValue 1 p < 128 then (rawValue 1 p : Int) else (rawValue 1 p : Int) - 256) := by
  have h : rawValue 1 p < 2 ^ 8 := rawValue_lt 1 p
  rw [decF8, BitVec.toInt_eq_toNat_cond, BitVec.toNat_ofNat, Nat.mod_eq_of_lt h]
  omega

/-- The packed value is the number whose three bits are the tests of the three bytes. -/
theorem packThree_eq_ofBits (test : Byte → Bool) (p : List Byte) :
    packThree test p = (Nat.ofBits fun i : Fin 3 => test (p.getD i 0) : Nat) := by
  have hbits : (Nat.ofBits fun i : Fin 3 => test (p.getD i 0)) =
      2 * (2 * (test (p.getD 2 0)).toNat + (test (p.getD 1 0)).toNat) + (test (p.getD 0 0)).toNat := by
    simp only [Nat.ofBits_succ, Nat.ofBits_zero, Nat.mul_zero, Nat.zero_add]
    rfl
  rw [packThree, hbits]
  omega

/-! ## Ranges -/

/-- R158's table, format by format: each value in plain arithmetic of a raw value below 256^n. -/
theorem decodeValue_mem_range (f : Format) (p : List Byte) :
    (resultRange f).1 ≤ decodeValue f p ∧ decodeValue f p ≤ (resultRange f).2 := by
  have h1 := rawValue_lt 1 p; have h2 := rawValue_lt 2 p; have h3 := rawValue_lt 3 p; have h4 := rawValue_lt 4 p
  have hpack (test : Byte → Bool) : 0 ≤ packThree test p ∧ packThree test p ≤ 7 := by
    have := Nat.ofBits_lt_two_pow fun i : Fin 3 => test (p.getD i 0)
    rw [packThree_eq_ofBits]
    omega
  cases f with
  | f1 => simp only [resultRange, decodeValue, decF1_eq]; omega
  | f2 => simp only [resultRange, decodeValue, decF2_eq]; omega
  | f2b => simp only [resultRange, decodeValue, decF2b, decF2_eq]; omega
  | f3 => simp only [resultRange, decodeValue, decF3_eq]; omega
  | f3b => simp only [resultRange, decodeValue, decF3b, decF3_eq]; omega
  | f4 => simp only [resultRange, decodeValue, decF4_eq]; omega
  | f5 => simp only [resultRange, decodeValue, decF5_eq]; omega
  | f6 => simp only [resultRange, decodeValue, decF6]; omega
  | f7 => simp only [resultRange, decodeValue, decF7_eq]; omega
  | f8 => simp only [resultRange, decodeValue, decF8_eq]; omega
  | shsel => exact hpack fun b => b.getLsbD 4
  | shlbl => exact hpack Config.labelTest
  | u8 => simp only [resultRange, decodeValue, decU8]; omega

/-- Every range of R158's table lies in the signed 32-bit range. -/
theorem resultRange_within_32 (f : Format) : -2147483648 ≤ (resultRange f).1 ∧ (resultRange f).2 ≤ 2147483647 := by
  cases f <;> decide

/-- RESULT holds a decoded value exactly (R158). -/
theorem toInt_ofInt_decodeValue (f : Format) (p : List Byte) :
    (BitVec.ofInt 32 (decodeValue f p)).toInt = decodeValue f p := by
  obtain ⟨hlo, hhi⟩ := decodeValue_mem_range f p
  obtain ⟨hmin, hmax⟩ := resultRange_within_32 f
  exact toInt_ofInt_32 _ (hmin.trans hlo) (hhi.trans hmax)

/-- Settles O25: every value lies in its format's range, and every range in the signed 32-bit one. -/
theorem resultRanges : Obligations.ResultRanges := fun f p _ =>
  ⟨(decodeValue_mem_range f p).1, (decodeValue_mem_range f p).2, toInt_ofInt_decodeValue f p⟩

/-! ## The values that DECODE leaves in RESULT -/

section decodeOfHeldPayload
variable (f : Format) (addr len : Byte) {p : List Byte} {s : State} (hb : s.busy = false)
  (hl : p.length = fmtlen f) (hp : PbufHolds s.pbuf p)
include hb hl hp

theorem exec_decodeRow_result :
    ∃ t, exec (Instr.decodeRow f addr len) s = .next t ∧ t.result = BitVec.ofInt 32 (decodeValue f p) :=
  ⟨_, exec_decodeRow_holds f addr len hb hl hp, rfl⟩

/-- RESULT, read as a signed word, is the decoded value itself: no format overflows it. -/
theorem exec_decodeRow_toInt {v : Int} (hv : decodeValue f p = v) :
    ∃ t, exec (Instr.decodeRow f addr len) s = .next t ∧ t.result.toInt = v := by
  obtain ⟨t, ht, hr⟩ := exec_decodeRow_result f addr len hb hl hp
  exact ⟨t, ht, by rw [hr, toInt_ofInt_decodeValue, hv]⟩

end decodeOfHeldPayload

/-- Settles O18. -/
theorem decodeTwoByteValues : Obligations.DecodeTwoByteValues := by
  intro b0 b1 addr len raw s hb hp hraw
  rw [← rawValue_two b0 b1 []] at hraw
  subst hraw
  exact ⟨exec_decodeRow_toInt .f1 addr len hb rfl hp (decF1_eq _), exec_decodeRow_toInt .f7 addr len hb rfl hp (decF7_eq _)⟩

/-- Settles O19. -/
theorem decodeF3Values : Obligations.DecodeF3Values := by
  intro b0 b1 b2 addr len raw s hb hp hraw
  rw [← rawValue_three b0 b1 b2 []] at hraw
  subst hraw
  refine ⟨exec_decodeRow_toInt .f3 addr len hb rfl hp (decF3_eq _), exec_decodeRow_toInt .f3b addr len hb rfl hp ?_⟩
  rw [decodeValue, decF3b, decF3_eq]
  omega

/-- Settles O20. -/
theorem decodeF2Values : Obligations.DecodeF2Values := by
  intro b0 b1 b2 addr len raw s hb hp hraw
  rw [← rawValue_three b0 b1 b2 []] at hraw
  subst hraw
  refine ⟨exec_decodeRow_toInt .f2 addr len hb rfl hp (decF2_eq _), exec_decodeRow_toInt .f2b addr len hb rfl hp ?_⟩
  rw [decodeValue, decF2b, decF2_eq]
  omega

/-- Settles O21. -/
theorem decodeFourByteValues : Obligations.DecodeFourByteValues := by
  intro b0 b1 b2 b3 addr len raw s hb hp hraw
  rw [← rawValue_four b0 b1 b2 b3 []] at hraw
  subst hraw
  exact ⟨exec_decodeRow_toInt .f4 addr len hb rfl hp (decF4_eq _), exec_decodeRow_toInt .f5 addr len hb rfl hp (decF5_eq _)⟩

/-- Settles O22. -/
theorem decodeOneByteValues : Obligations.DecodeOneByteValues := by
  intro b addr len s hb hp
  rw [← rawValue_one b []]
  refine ⟨exec_decodeRow_toInt .f6 addr len hb rfl hp ?_, exec_decodeRow_toInt .f8 addr len hb rfl hp (decF8_eq _),
    exec_decodeRow_toInt .u8 addr len hb rfl hp rfl⟩
  rw [decodeValue, decF6]
  omega

/-- RESULT's bits of a packed value: bit i is the test of byte i, and the others are 0. -/
theorem ofInt_packThree_getLsbD (test : Byte → Bool) (p : List Byte) (i : Nat) :
    (BitVec.ofInt 32 (packThree test p)).getLsbD i = (decide (i < 3) && test (p.getD i 0)) := by
  rw [packThree_eq_ofBits, BitVec.ofInt_natCast, BitVec.getLsbD_ofNat, Nat.testBit_ofBits]
  by_cases h : i < 3
  · simp [h, show i < 32 by omega]
  · simp [h]

/-- A DECODE of three bytes whose value is packed leaves the tests of the bytes in RESULT's low bits. -/
theorem exec_decodeRow_bits (f : Format) (addr len : Byte) (test : Byte → Bool) {p : List Byte} {s : State}
    (hb : s.busy = false) (hl : p.length = 3) (hp : PbufHolds s.pbuf p) (hn : fmtlen f = 3)
    (hf : decodeValue f p = packThree test p) :
    ∃ t, exec (Instr.decodeRow f addr len) s = .next t
      ∧ (∀ i (h : i < p.length), t.result.getLsbD i = test p[i]) ∧ ∀ i, 3 ≤ i → t.result.getLsbD i = false := by
  obtain ⟨t, ht, hr⟩ := exec_decodeRow_result f addr len hb (hl.trans hn.symm) hp
  refine ⟨t, ht, fun i h => ?_, fun i h => ?_⟩
  · rw [hr, hf, ofInt_packThree_getLsbD]
    simp [show i < 3 by omega, h]
  · rw [hr, hf, ofInt_packThree_getLsbD]
    simp [h]

/-- Settles O23: both formats pack a test of each byte, and LABEL_TEST stays unknown. -/
theorem decodeShuntBits : Obligations.DecodeShuntBits := fun _ addr len _ hb hl hp =>
  ⟨exec_decodeRow_bits .shsel addr len (fun b => b.getLsbD 4) hb hl hp rfl rfl,
    exec_decodeRow_bits .shlbl addr len Config.labelTest hb hl hp rfl rfl⟩

/-! ## Round trip with the instrument's encoder -/

/-- The encoder in plain arithmetic: the shifted magnitude, subtracted from all ones where the value is positive. -/
theorem encSI_eq (v : Int) (W S : Nat) (hW : 0 < W) (h : v.natAbs * 2 ^ S < 2 ^ (W - 1)) :
    encSI v W S = if 0 < v then 2 ^ W - 1 - v.natAbs * 2 ^ S else v.natAbs * 2 ^ S := by
  have hp := Nat.two_pow_pred_add_two_pow_pred hW
  simp only [encSI, Nat.and_two_pow_sub_one_eq_mod, Nat.shiftLeft_eq, Nat.mod_eq_of_lt h]
  split
  · have hlow : 2 ^ (W - 1) - 1 - v.natAbs * 2 ^ S < 2 ^ (W - 1) := by omega
    have hor := Nat.two_pow_add_eq_or_of_lt hlow 1
    rw [Nat.mul_one] at hor
    rw [show 2 ^ W - 1 - v.natAbs * 2 ^ S = 2 ^ (W - 1) + (2 ^ (W - 1) - 1 - v.natAbs * 2 ^ S) by omega,
      Nat.add_mod_left, Nat.mod_eq_of_lt hlow, hor]
  · rfl

/-- Sign by inversion undoes the encoder at every width and shift (R159). -/
theorem signByInversion_encSI (v : Int) (W S : Nat) (hW : 0 < W) (h : v.natAbs * 2 ^ S < 2 ^ (W - 1)) :
    signByInversion (encSI v W S) W S = v := by
  have hp := Nat.two_pow_pred_add_two_pow_pred hW
  have hdiv : v.natAbs * 2 ^ S / 2 ^ S = v.natAbs := Nat.mul_div_cancel _ (Nat.two_pow_pos S)
  rw [encSI_eq v W S hW h]
  split
  · rw [signByInversion_eq _ _ _ hW (by omega), if_neg (by omega), Nat.sub_sub_self (by omega), hdiv]
    omega
  · rw [signByInversion_eq _ _ _ hW (by omega), if_pos h, hdiv]
    omega

/-- The encoder's value fits its width. -/
theorem encSI_lt (v : Int) (W S : Nat) (hW : 0 < W) (h : v.natAbs * 2 ^ S < 2 ^ (W - 1)) : encSI v W S < 2 ^ W := by
  have := Nat.pow_lt_pow_right (a := 2) (by omega) (Nat.sub_lt hW Nat.one_pos)
  rw [encSI_eq v W S hW h]
  split <;> omega

/-- Reading n little-endian bytes back (20_memory.md R48). -/
theorem leValue_leBytes (n v : Nat) (h : v < 256 ^ n) : leValue (leBytes n v) = v := by
  induction n generalizing v with
  | zero => exact (Nat.lt_one_iff.mp h).symm
  | succ n ih =>
    rw [leBytes, leValue, ih _ (Nat.div_lt_of_lt_mul (by rwa [← Nat.pow_succ'])), BitVec.toNat_ofNat]
    omega

theorem leBytes_length (n v : Nat) : (leBytes n v).length = n := by
  induction n generalizing v with
  | zero => rfl
  | succ n ih => rw [leBytes, List.length_cons, ih]

theorem rawValue_leBytes (n v : Nat) (h : v < 256 ^ n) : rawValue n (leBytes n v) = v := by
  rw [rawValue, List.take_of_length_le (leBytes_length n v).le, leValue_leBytes n v h]

/-- Decoding the bytes of the encoder's value, for a format of n bytes and so a width of 8 n bits. -/
theorem signByInversion_rawValue_encSI (v : Int) (n S : Nat) (hn : 0 < n) (h : v.natAbs * 2 ^ S < 2 ^ (8 * n - 1)) :
    signByInversion (rawValue n (leBytes n (encSI v (8 * n) S))) (8 * n) S = v := by
  have hlt := encSI_lt v (8 * n) S (by omega) h
  rw [rawValue_leBytes n _ (by rwa [Nat.pow_mul] at hlt), signByInversion_encSI v (8 * n) S (by omega) h]

/-- Settles O26: the law holds at every width and shift, and the format's bytes carry the whole raw value. -/
theorem signByInversionRoundTrip : Obligations.SignByInversionRoundTrip := by
  have hF3 (v : Int) (h : v.natAbs ≤ 2 ^ 23 - 1) : decF3 (leBytes 3 (encSI v 24 0)) = v :=
    signByInversion_rawValue_encSI v 3 0 (by omega) (by omega)
  refine ⟨fun W S hWS v h => ?_, fun v h => ⟨hF3 v h, ?_⟩, fun v h => ?_, fun v h => ?_⟩
  · simp only [List.mem_cons, Prod.mk.injEq, List.not_mem_nil, or_false] at hWS
    rcases hWS with ⟨rfl, rfl⟩ | ⟨rfl, rfl⟩ | ⟨rfl, rfl⟩
    · exact signByInversion_encSI v 24 0 (by omega) (by omega)
    · exact signByInversion_encSI v 32 7 (by omega) (by omega)
    · exact signByInversion_encSI v 32 0 (by omega) (by omega)
  · rw [decodeValue, decF3b, hF3 v h, Int.mul_comm]
  · exact signByInversion_rawValue_encSI v 4 7 (by omega) (by omega)
  · exact signByInversion_rawValue_encSI v 4 0 (by omega) (by omega)

end Sys2Proof.Machine
end

section
/-!
PROOFS. The statement about the channel read (42_channel_read.md R181): where a successful RDCH ends, and that an SREAD followed by
a DECODE ends there too, but for CMD and the two engine fields that name the exchange.
-/
namespace Sys2Proof.Machine

/-- A plan of two parts is the second part planned, and then the first. -/
theorem plan_append (s : State) (ms ns : List Move) : s.plan (ms ++ ns) = (s.plan ns).plan ms := by
  simp [State.plan]

/-- A success, field by field (R203). -/
theorem complete_none_eq (v : Int) (s : State) :
    complete .none v s = { s with
      phase := .idle, txidx := 0, rxidx := 0, acc := 0
      busy := false, done := true, ok := true, err := .none, result := BitVec.ofInt 32 v } := by
  simp [complete]

/-- An RDCH that has sent its request and taken the payload bytes p, with the bytes rest left in RXQ. -/
def rdchTaken (f : Format) (a len : Byte) (p rest : List Byte) (s : State) : State :=
  { turned .rdch (BitVec.ofNat 8 (fmtlen f)) f.code (shortReadFrame a (BitVec.ofNat 8 (fmtlen f)))
      (commandWord opRdch f.code a len) s with
    rxq := rest, rxidx := p.length, acc := BitVec.ofNat 8 (byteSum p), pbuf := Memory.writeBytes s.pbuf 0 p }

/-- The end of a successful RDCH of the payload p with the trailing byte t, the bytes rest left in RXQ. -/
def rdchDone (f : Format) (a len t : Byte) (p rest : List Byte) (s : State) : State :=
  complete .none (decodeValue f p) { rdchTaken f a len p rest s with rxchk := t, rxsum := 0xFF }

/-- The good trailing byte of an RDCH: its step decodes the payload that the payload steps have just written (R109, R180). -/
theorem trailingStep_rdchTaken (f : Format) (a len t : Byte) (p rest : List Byte) (s : State) (hl : p.length = fmtlen f)
    (hsum : (byteSum p + t.toNat) % 256 = 0xFF) :
    trailingStep t (rdchTaken f a len p rest s) = .next (rdchDone f a len t p rest s) := by
  have hacc : (rdchTaken f a len p rest s).acc + t = 0xFF := by
    rw [add_eq_ff, rdchTaken, BitVec.toNat_ofNat, Nat.mod_add_mod, hsum]
  have htrail := trailingStep_channel t _ f p hacc nofun (Format.ofCode_code f) hl (PbufHolds.of_writeBytes s.pbuf p)
  rwa [hacc] at htrail

/-- The whole run of an RDCH whose response is queued with a good sum. -/
theorem steps_rdch_good (f : Format) (a len t : Byte) (p rest : List Byte) (s : State) (hb : s.busy = false)
    (he : s.eosf = false) (hl : p.length = fmtlen f) (hq : s.rxq = p ++ t :: rest)
    (hsum : (byteSum p + t.toNat) % 256 = 0xFF) :
    steps (fmtlen f + 6) (s.plan (commandThenEngine (commandWord opRdch f.code a len) (fmtlen f + 5))) =
      .next (rdchDone f a len t p rest s) := by
  have hn : p.length = (BitVec.ofNat 8 (fmtlen f)).toNat := hl.trans (fmtlen_toNat f).symm
  have hrun := steps_read .rdch _ _ a _ f.code p (t :: rest) s [.engine] (decodeCommand_rdch f a len) nofun hn.le hq
    fun ms => exec_rdchRow_open f a len hb he
  have hlast := step_trailing t rest (rdchTaken f a len p (t :: rest) s) [] rfl (by simp [rdchTaken, turned]) rfl hn
  rw [commandThenEngine, List.replicate_succ', ← hl, steps_add 1 hrun]
  exact steps_succ 0 (hlast.trans (trailingStep_rdchTaken f a len t p rest s hl hsum))

/-- The whole run of an SREAD of fmtlen(f) bytes whose response is queued with a good sum, and of the DECODE after it, ends where
the RDCH ends, but for the command word and the exchange's XOP and XFMT (R181). -/
theorem steps_sread_then_decode_good (f : Format) (fmt : Nibble) (a len a' len' t : Byte) (p rest : List Byte) (s : State)
    (hb : s.busy = false) (he : s.eosf = false) (hl : p.length = fmtlen f) (hq : s.rxq = p ++ t :: rest)
    (hsum : (byteSum p + t.toNat) % 256 = 0xFF) :
    steps (fmtlen f + 7)
        (s.plan (commandThenEngine (commandWord opSread fmt a (BitVec.ofNat 8 (fmtlen f))) (fmtlen f + 5)
          ++ [.hostWrite 0x000 4 (commandWord opDecode f.code a' len')])) =
      .next { rdchDone f a len t p rest s with
        cmd := (acceptCommand (commandWord opDecode f.code a' len') s).cmd, xop := .sread, xfmt := fmt } := by
  have hn := fmtlen_toNat f
  have hread := steps_sread_judged fmt a (BitVec.ofNat 8 (fmtlen f)) t p rest
    (s.plan [.hostWrite 0x000 4 (commandWord opDecode f.code a' len')]) hb he (hl.trans hn.symm) hq
  have hdecode := step_plan_command (complete .none 0
    { sreadTaken fmt a (BitVec.ofNat 8 (fmtlen f)) p rest s with rxchk := t, rxsum := 0xFF }) [] _ _
    (decodeCommand_decode f a' len')
  rw [plan_nil, exec_decodeRow_holds f a' len' rfl hl (PbufHolds.of_writeBytes s.pbuf p)] at hdecode
  rw [hn, if_pos hsum, hsum, ← plan_append] at hread
  rw [steps_add 1 hread]
  refine (steps_succ 0 hdecode).trans ?_
  rw [rdchDone, complete_none_eq, complete_none_eq, complete_none_eq]
  rfl

/-- Settles O41: the two runs end in one state but for CMD, XOP and XFMT, which the statement does not speak of. -/
theorem rdchIsSreadThenDecode : Obligations.RdchIsSreadThenDecode := by
  intro f fmt a len a' len' t p rest s hb he hl hq hsum
  exact ⟨_, _, steps_rdch_good f a len t p rest s hb he hl hq hsum,
    steps_sread_then_decode_good f fmt a len a' len' t p rest s hb he hl hq hsum,
    rfl, rfl, rfl, rfl, rfl, rfl, rfl, rfl, rfl, rfl⟩

end Sys2Proof.Machine
end

section
/-!
PROOFS. The statement about commands met after the end of the stream (60_exceptions.md R201 check 3).
-/
namespace Sys2Proof.Machine

/-- A command word has no reserved bit set: its bits 23:0 are the whole word (R70, R71). -/
theorem ofNat_commandWord_mod (op fmt : Nibble) (addr len : Byte) :
    BitVec.ofNat 32 ((commandWord op fmt addr len).toNat % 2 ^ 24) = commandWord op fmt addr len := by
  have h1 := op.isLt; have h2 := fmt.isLt; have h3 := addr.isLt; have h4 := len.isLt
  have hlt : (commandWord op fmt addr len).toNat < 2 ^ 24 := by rw [commandWord_toNat]; omega
  rw [Nat.mod_eq_of_lt hlt, BitVec.ofNat_toNat, BitVec.setWidth_eq]

/-- A command that checks the stream, met idle after its end, completes with EOS in the accept step, whatever its body would do
(R201 check 3, R203). -/
theorem onCommand_onOpenStream_ended (op fmt : Nibble) (addr len : Byte) (body : State → Out) {s : State}
    (hb : s.busy = false) (he : s.eosf = true) :
    onCommand (commandWord op fmt addr len) s (fun t => onOpenStream t (body t)) = .next { s with
      cmd := commandWord op fmt addr len, done := true, ok := false, err := .eos, result := 0
      phase := .idle, txidx := 0, rxidx := 0, acc := 0 } := by
  rw [onCommand_idle _ _ _ hb, onOpenStream_ended _ _ ((acceptCommand_eosf ..).trans he),
    complete_acceptCommand_failure .eos 0 _ hb nofun fun _ => he, ofNat_commandWord_mod]

/-- Settles O15: each row's meaning is a command whose body begins with the stream check, before SWRITE looks at its payload. -/
theorem transportRefusedAfterEos : Obligations.TransportRefusedAfterEos := by
  intro fmt f a n s hb he i hi
  simp only [List.mem_cons, List.not_mem_nil, or_false] at hi
  rcases hi with rfl | rfl | rfl
  · refine ⟨_, rfl, ?_⟩
    rw [exec, execSread]
    exact onCommand_onOpenStream_ended opSread fmt a n _ hb he
  · refine ⟨_, rfl, ?_⟩
    rw [exec, execSwrite]
    exact onCommand_onOpenStream_ended opSwrite fmt a n _ hb he
  · refine ⟨_, (encode_rdchRow f a n).symm, ?_⟩
    rw [exec_rdchRow]
    exact onCommand_onOpenStream_ended opRdch f.code a n _ hb he

end Sys2Proof.Machine
end

section
/-!
PROOFS. The statements about reset and the hazards of a busy block (70_reset_and_hazards.md): what a reset move gives and keeps, that
a host access met while BUSY touches nothing of the exchange, and what each such access answers.
-/
namespace Sys2Proof.Machine

/-! ## Reset -/

theorem step_reset (s : State) (hm : nextMove s = .reset) : step s = .next (resetBlock (popMove s)) := by
  rw [step, hm, runMove]

/-- Settles O55: every field of the block is `State.reset`'s, whose values O54 gives, and the transport is the popped state's. -/
theorem resetMove : Obligations.ResetMove := by
  intro s hm
  obtain ⟨hcmd, hstatus, hresult, hchk, hpbuf, hphase, htxidx, hrxidx, hacc⟩ := resetValues
  exact ⟨_, step_reset s hm, hcmd, hstatus, hresult, hchk, hpbuf, hphase, htxidx, hrxidx, hacc,
    popMove_txs s, popMove_rxq s, popMove_rxend s⟩

/-! ## The frame of a host access while BUSY -/

/-- A host load changes nothing but the host's own record, BUSY or not (R44). -/
theorem Effect.load_frame {s t : State} {off size : Nat} (h : Effect s (.hostRead off size) t) :
    t = { s with hostIn := t.hostIn } := by
  cases h with
  | nothing => rfl
  | load => rfl

/-- A host store met while BUSY changes nothing but OVR: the effects that write more need BUSY = 0 (R240). -/
theorem Effect.store_frame {s t : State} {off size : Nat} {v : Word} (h : Effect s (.hostWrite off size v) t)
    (hb : s.busy = true) : t = { s with ovr := t.ovr } := by
  cases h with
  | nothing => rfl
  | status => rfl
  | overrun => rfl
  | fill _ _ _ hidle => exact nomatch hb.symm.trans hidle
  | finish _ _ _ hidle => exact nomatch hb.symm.trans hidle
  | start _ _ _ _ _ hidle => exact nomatch hb.symm.trans hidle

/-- Settles O59. -/
theorem busyShieldsExchange : Obligations.BusyShieldsExchange := by
  intro s t off size v hb hm hstep
  have heff := step_effect hstep
  rcases hm with hm | hm <;> rw [hm] at heff
  · rw [heff.load_frame]
  · rw [heff.store_frame ((popMove_busy s).trans hb)]

/-! ## Stores that are ignored while BUSY -/

/-- Every command row is ignored while BUSY and sets OVR (R240, R111). -/
theorem exec_command_busy {w : Word} {i : Instr} {s : State} (hd : decodeCommand w = .ok i) (hb : s.busy = true) :
    exec i s = .next (overrun s) := by
  rcases decodeCommand_ok hd with ⟨-, rfl⟩ | ⟨-, rfl⟩ | ⟨f, -, -, rfl⟩ | ⟨f, -, -, rfl⟩
  · rw [exec, execSread, onCommand_busy _ _ _ hb]
  · rw [exec, execSwrite, onCommand_busy _ _ _ hb]
  · rw [exec_decodeRow, onCommand_busy _ _ _ hb]
  · rw [exec_rdchRow, onCommand_busy _ _ _ hb]

/-- An illegal command word is ignored while BUSY like any other: BUSY is looked at before R74's checks. -/
theorem rejectCommand_busy {w : Word} {r : Reject} {s : State} (hd : decodeCommand w = .error r) (hb : s.busy = true) :
    rejectCommand r w s = .next (overrun s) := by
  rcases (decodeCommand_error_iff w r).mp hd with ⟨rfl, -⟩ | ⟨rfl, -⟩
  · rw [rejectCommand, onCommand_busy _ _ _ hb]
  · rw [rejectCommand, onCommand_busy _ _ _ hb]

theorem storeCommand_busy (w : Word) {s : State} (hb : s.busy = true) : storeCommand w s = .next (overrun s) := by
  rw [storeCommand, decode_command_wordBytes]
  cases hd : decodeCommand w with
  | ok i => exact exec_command_busy hd hb
  | error r => exact rejectCommand_busy hd hb

/-- A store in PBUF while BUSY is ignored and sets OVR (R240). -/
theorem storeValue_pbuf_busy (off size : Nat) (v : Word) {s : State} (ho : 0x100 ≤ off) (hb : s.busy = true) :
    storeValue off size v s = overrun s := by
  rw [storeValue, if_neg (by omega), if_neg (by omega), if_pos hb]

/-- A store to STATUS, BUSY or not (R46). -/
theorem step_store_status (s : State) (v : Word) (hm : nextMove s = .hostWrite 0x004 4 v) :
    step s = .next { popMove s with ovr := s.ovr && !v.getLsbD 9 } := by
  rw [step_store_other s 0x004 4 v hm rfl (by decide), storeValue_status, writeStatus_eq, popMove_ovr]

/-- Settles O17: BUSY decides only the stores to CMD and PBUF; the equations of a STATUS store and of the loads ask nothing of it. -/
theorem writesWhileBusy : Obligations.WritesWhileBusy := by
  intro s hb
  have hbusy : (popMove s).busy = true := (popMove_busy s).trans hb
  refine ⟨fun w hm => ?_, fun off size v hm hlo hhi hshape => ?_, step_store_status s,
    fun off size hm hshape => ?_, fun off b hm ho hr => ?_⟩
  · rw [step_store_command s w hm, storeCommand_busy w hbusy, overrun]
  · have hs : supported off size = true := (supported_iff off size).mpr (by omega)
    rw [step_store_other s off size v hm hs (by omega), storeValue_pbuf_busy off size v hlo hbusy, overrun]
  · obtain ⟨rfl, ha, ho⟩ := hshape
    exact ⟨_, step_load_register s off hm ha ho⟩
  · have hbyte : supported (0x100 + off) 1 = true := (supported_pbuf_iff off 1).mpr (.inl ⟨rfl, ho⟩)
    have hread : Memory.readBytes s.pbuf off 1 = some [b] := by simp [Memory.readBytes, hr]
    rw [step_load_pbuf hm hbyte hread, wordOfBytes_one]

end Sys2Proof.Machine
end
